-- ==== Sys2Proof/Word.lean ====
section
/-! DEFINITION. The bit-vector types of the core: source bytes and host register words (00_scope.md R8, 20_memory.md R60, R62). -/

namespace Sys2Proof

/-- A byte of the source byte space (20_memory.md R60). -/
abbrev Byte := BitVec 8

/-- A host register word (10_state.md R21). -/
abbrev Word := BitVec 32

end Sys2Proof
end

