-- ==== Sys2Proof/Syntax.lean ====
section
/-! DEFINITION. The block record and the operations of spec/opcode_table.json, one constructor a row. -/

namespace Sys2Proof

/-- A block record of the block store (10_state.md R42). `ends` is the record's `end` flag.
A nibble is a signed 4-bit value: `BitVec.toInt` reads it in [-8, 7]. -/
structure BlockRec where
  ends : Bool
  loop : Bool
  filter : BitVec 2
  range : BitVec 4
  nib : Vector (BitVec 4) 16
deriving DecidableEq, Repr, Inhabited

/-- The operations an encoded input of the core selects (30_encoding.md R91): the 20 rows of the
opcode table. The operands are the fields of the row's encoding. -/
inductive Instr where
  /-- PARSE_BLOCK: a 9-byte block, its header fields and its nibble codes in order (R80 to R83, R114). -/
  | parseBlock (range : BitVec 4) (filter : BitVec 2) (loop ends : Bool) (nibbles : List (BitVec 4))
  /-- FILTER0: a header byte with `filter` 0 (R81, R133). -/
  | filter0 (range : BitVec 4) (loop ends : Bool)
  /-- FILTER1: a header byte with `filter` 1 (R81, R134). -/
  | filter1 (range : BitVec 4) (loop ends : Bool)
  /-- FILTER2: a header byte with `filter` 2 (R81, R135). -/
  | filter2 (range : BitVec 4) (loop ends : Bool)
  /-- FILTER3: a header byte with `filter` 3 (R81, R136). -/
  | filter3 (range : BitVec 4) (loop ends : Bool)
  /-- GAIN_DIRECT: a gain byte with bit 7 clear (R86, R165). -/
  | gainDirect (level : BitVec 7)
  /-- GAIN_LINEAR_DECREASE: gain byte 100rrrrr (R88, R176). -/
  | gainLinearDecrease (rate : BitVec 5)
  /-- GAIN_EXPONENTIAL_DECREASE: gain byte 101rrrrr (R88, R177). -/
  | gainExponentialDecrease (rate : BitVec 5)
  /-- GAIN_LINEAR_INCREASE: gain byte 110rrrrr (R88, R178). -/
  | gainLinearIncrease (rate : BitVec 5)
  /-- GAIN_BENT_INCREASE: gain byte 111rrrrr (R88, R179). -/
  | gainBentIncrease (rate : BitVec 5)
  /-- ADSR: the ADSR word; `enabled` is bit 15, which no rule reads (R84, R164). -/
  | adsr (enabled : Bool) (decayRate : BitVec 3) (attackRate : BitVec 4) (sustainLevel : BitVec 3)
      (sustainRate : BitVec 5)
  /-- ADSR_ATTACK: phase 0 (R170). -/
  | adsrAttack
  /-- ADSR_DECAY: phase 1 (R171). -/
  | adsrDecay
  /-- ADSR_SUSTAIN: phase 2 (R172). -/
  | adsrSustain
  /-- ADSR_RELEASE: phase 3 (R173). -/
  | adsrRelease
  /-- ENV_DEFAULT: neither envelope configuration present (R167). -/
  | envDefault
  /-- NOP: CTRL word with CMD 0 (R90, R201). -/
  | nop
  /-- START: CTRL word with CMD 1 (R90, R202). -/
  | start
  /-- PULL: CTRL word with CMD 2 (R90, R203). -/
  | pull
  /-- CMD_RESERVED: CTRL word with CMD 3 (R90, R209). -/
  | cmdReserved
deriving DecidableEq, Repr

end Sys2Proof
end

