-- ==== Sys2Proof/WellFormed.lean ====
section
/-! DEFINITION. Well-formed instructions. Every operand's type is as wide as its field, so the one
check is that a block has its 16 nibbles (30_encoding.md R80, R92: every header, data, gain, ADSR
and phase value is legal). -/

namespace Sys2Proof

/-- "A block holds 16 nibbles" (00_scope.md R7, 40_block_decoder.md R114). -/
def Instr.wellFormed (i : Instr) : Bool :=
  match i with
  | .parseBlock _ _ _ _ nibbles => nibbles.length == 16
  | .filter0 _ _ _ => true
  | .filter1 _ _ _ => true
  | .filter2 _ _ _ => true
  | .filter3 _ _ _ => true
  | .gainDirect _ => true
  | .gainLinearDecrease _ => true
  | .gainExponentialDecrease _ => true
  | .gainLinearIncrease _ => true
  | .gainBentIncrease _ => true
  | .adsr _ _ _ _ _ => true
  | .adsrAttack => true
  | .adsrDecay => true
  | .adsrSustain => true
  | .adsrRelease => true
  | .envDefault => true
  | .nop => true
  | .start => true
  | .pull => true
  | .cmdReserved => true

end Sys2Proof
end

