-- ==== Sys2Proof/Decode.lean ====
section
/-! DEFINITION. The decoder and the encoder of the core's encoded inputs (30_encoding.md). The six
kinds of input overlap as bit patterns, and what a pattern means depends on where it stands, so an
input is its bits with their format (log 10). -/

namespace Sys2Proof

/-- An encoded input of the core: the formats of spec/opcode_table.json. -/
inductive Input where
  /-- The bytes of a block, at increasing addresses (R80). -/
  | block (bytes : List Byte)
  /-- A header byte, as the selector of the filter (R81, R91). -/
  | header (h : Byte)
  /-- The gain byte (R86). -/
  | gain (g : Byte)
  /-- The ADSR word (R84). -/
  | adsr (a : BitVec 16)
  /-- The ADSR phase (10_state.md R23). -/
  | phase (p : BitVec 2)
  /-- The two PRESENT bits, which select the default envelope when both are 0 (R91). -/
  | config (adsrPresent gainPresent : Bool)
  /-- A word written to CTRL (R90). -/
  | ctrl (w : Word)
deriving DecidableEq, Repr

/-- Why an input is no instruction. -/
inductive DecodeReject where
  /-- Fewer than 9 bytes: no block is ever partially emitted (R80, 40_block_decoder.md R118). -/
  | blockTruncated
  /-- More than 9 bytes: a block is 9 bytes exactly (R80). -/
  | blockOverlong
  /-- ENV_DEFAULT is selected only when neither configuration is present (R91). -/
  | envelopeConfigured
deriving DecidableEq, Repr

/-! ### Fields -/

/-- Header bits 7:4 (R81). -/
def headerRange (h : Byte) : BitVec 4 := h.extractLsb' 4 4

/-- Header bits 3:2 (R81). -/
def headerFilter (h : Byte) : BitVec 2 := h.extractLsb' 2 2

/-- Header bit 1 (R81). -/
def headerLoop (h : Byte) : Bool := h.getLsbD 1

/-- Header bit 0 (R81). -/
def headerEnd (h : Byte) : Bool := h.getLsbD 0

/-- `{range[3:0], filter[1:0], loop, end}` (R81). -/
def packHeader (range : BitVec 4) (filter : BitVec 2) (loop ends : Bool) : Byte :=
  range ++ filter ++ BitVec.ofBool loop ++ BitVec.ofBool ends

/-- The two nibble codes of each data byte, high then low (R82). -/
def unpackNibbles : List Byte → List (BitVec 4)
  | [] => []
  | d :: ds => d.extractLsb' 4 4 :: d.extractLsb' 0 4 :: unpackNibbles ds

/-- Data byte `k` is `{c[2k], c[2k+1]}` (R82, R94). -/
def packNibbles : List (BitVec 4) → List Byte
  | hi :: lo :: cs => (hi ++ lo) :: packNibbles cs
  | [_] => []
  | [] => []

/-- The ADSR word of two bytes, in the order supplied: MSB first (R85). -/
def adsrOfBytes (b0 b1 : Byte) : BitVec 16 := b0 ++ b1

/-! ### The decoder -/

/-- The block at the front of a byte stream and the bytes after it (R80, R93). -/
def decodeBlockPrefix : List Byte → Except DecodeReject (Instr × List Byte)
  | h :: d0 :: d1 :: d2 :: d3 :: d4 :: d5 :: d6 :: d7 :: rest =>
    .ok (.parseBlock (headerRange h) (headerFilter h) (headerLoop h) (headerEnd h)
      (unpackNibbles [d0, d1, d2, d3, d4, d5, d6, d7]), rest)
  | _ => .error .blockTruncated

/-- A block of exactly 9 bytes (R80). -/
def decodeBlock (bytes : List Byte) : Except DecodeReject Instr :=
  match decodeBlockPrefix bytes with
  | .ok (i, []) => .ok i
  | .ok (_, _ :: _) => .error .blockOverlong
  | .error e => .error e

/-- The filter a header byte selects (R91: mask 0x0C). -/
def decodeHeader (h : Byte) : Instr :=
  match h.getLsbD 3, h.getLsbD 2 with
  | false, false => .filter0 (headerRange h) (headerLoop h) (headerEnd h)
  | false, true => .filter1 (headerRange h) (headerLoop h) (headerEnd h)
  | true, false => .filter2 (headerRange h) (headerLoop h) (headerEnd h)
  | true, true => .filter3 (headerRange h) (headerLoop h) (headerEnd h)

/-- The envelope a gain byte selects (R86, R88, R91). -/
def decodeGain (g : Byte) : Instr :=
  match g.getLsbD 7, g.getLsbD 6, g.getLsbD 5 with
  | false, _, _ => .gainDirect (g.extractLsb' 0 7)
  | true, false, false => .gainLinearDecrease (g.extractLsb' 0 5)
  | true, false, true => .gainExponentialDecrease (g.extractLsb' 0 5)
  | true, true, false => .gainLinearIncrease (g.extractLsb' 0 5)
  | true, true, true => .gainBentIncrease (g.extractLsb' 0 5)

/-- The fields of an ADSR word (R84). -/
def decodeAdsr (a : BitVec 16) : Instr :=
  .adsr (a.getLsbD 15) (a.extractLsb' 12 3) (a.extractLsb' 8 4) (a.extractLsb' 5 3) (a.extractLsb' 0 5)

/-- The phase's step (10_state.md R23, 42_envelope.md R168). -/
def decodePhase (p : BitVec 2) : Instr :=
  match p.getLsbD 1, p.getLsbD 0 with
  | false, false => .adsrAttack
  | false, true => .adsrDecay
  | true, false => .adsrSustain
  | true, true => .adsrRelease

/-- The command `CMD` names (R90). -/
def decodeCmd (c : BitVec 2) : Instr :=
  match c.getLsbD 1, c.getLsbD 0 with
  | false, false => .nop
  | false, true => .start
  | true, false => .pull
  | true, true => .cmdReserved

/-- A CTRL write's command: bits 1:0, the rest ignored (R90). -/
def decodeCtrl (w : Word) : Instr := decodeCmd (w.extractLsb' 0 2)

/-- The operation an encoded input selects, or the name of the reason it selects none (R91, R92). -/
def decode : Input → Except DecodeReject Instr
  | .block bytes => decodeBlock bytes
  | .header h => .ok (decodeHeader h)
  | .gain g => .ok (decodeGain g)
  | .adsr a => .ok (decodeAdsr a)
  | .phase p => .ok (decodePhase p)
  | .config false false => .ok .envDefault
  | .config true _ => .error .envelopeConfigured
  | .config false true => .error .envelopeConfigured
  | .ctrl w => .ok (decodeCtrl w)

/-! ### The encoder -/

/-- The gain byte with bit 7 set: `{1, mode, rate}` (R86). -/
def packCustomGain (mode : BitVec 2) (rate : BitVec 5) : Byte := 1#1 ++ mode ++ rate

/-- The ADSR word (R84). -/
def packAdsr (enabled : Bool) (decayRate : BitVec 3) (attackRate : BitVec 4) (sustainLevel : BitVec 3)
    (sustainRate : BitVec 5) : BitVec 16 :=
  BitVec.ofBool enabled ++ decayRate ++ attackRate ++ sustainLevel ++ sustainRate

/-- The encoded input of an instruction. A command's ignored bits 31:2 are 0. -/
def encode : Instr → Input
  | .parseBlock range filter loop ends nibbles =>
    .block (packHeader range filter loop ends :: packNibbles nibbles)
  | .filter0 range loop ends => .header (packHeader range 0 loop ends)
  | .filter1 range loop ends => .header (packHeader range 1 loop ends)
  | .filter2 range loop ends => .header (packHeader range 2 loop ends)
  | .filter3 range loop ends => .header (packHeader range 3 loop ends)
  | .gainDirect level => .gain (0#1 ++ level)
  | .gainLinearDecrease rate => .gain (packCustomGain 0 rate)
  | .gainExponentialDecrease rate => .gain (packCustomGain 1 rate)
  | .gainLinearIncrease rate => .gain (packCustomGain 2 rate)
  | .gainBentIncrease rate => .gain (packCustomGain 3 rate)
  | .adsr enabled decayRate attackRate sustainLevel sustainRate =>
    .adsr (packAdsr enabled decayRate attackRate sustainLevel sustainRate)
  | .adsrAttack => .phase 0
  | .adsrDecay => .phase 1
  | .adsrSustain => .phase 2
  | .adsrRelease => .phase 3
  | .envDefault => .config false false
  | .nop => .ctrl 0
  | .start => .ctrl 1
  | .pull => .ctrl 2
  | .cmdReserved => .ctrl 3

/-! ### Words numbered as the opcode table numbers them -/

/-- The `n` bytes of `w`, the first byte being its bits 7:0. -/
def bytesOfNat : Nat → Nat → List Byte
  | 0, _ => []
  | n + 1, w => BitVec.ofNat 8 w :: bytesOfNat n (w / 256)

/-- The input that `nbits` bits of value `w` stand for. DESIGN CHOICE (log 10): the table's 8-bit
rows overlap, and the format is chosen by the value: 0 to 3 a command, 4 to 0x0F a header byte that
selects a filter, 0x10 to 0x7F the first byte of a block whose data bytes are 0, 0x80 on a gain byte. -/
def tableInput (nbits w : Nat) : Option Input :=
  if 2 ^ nbits ≤ w then none
  else if nbits = 8 then
    if w < 4 then some (.ctrl (BitVec.ofNat 32 w))
    else if w < 0x10 then some (.header (BitVec.ofNat 8 w))
    else if w < 0x80 then some (.block (bytesOfNat 9 w))
    else some (.gain (BitVec.ofNat 8 w))
  else if nbits = 16 then some (.adsr (BitVec.ofNat 16 w))
  else if nbits = 32 then some (.ctrl (BitVec.ofNat 32 w))
  else if nbits = 72 then some (.block (bytesOfNat 9 w))
  else none

/-- The instruction the decoder reads from `nbits` bits of value `w`. -/
def decodeTableWord (nbits w : Nat) : Option Instr :=
  match tableInput nbits w with
  | some inp => (decode inp).toOption
  | none => none

end Sys2Proof
end

