-- ==== Sys2Proof/Config.lean ====
section
/-! DEFINITION. The implementation parameters of 00_scope.md R6, their defaults, and the free values. -/

namespace Sys2Proof

/-- `SCALE_ROUND`: the rounding of the scaler's divide (43_playback_driver.md R205). -/
inductive ScaleRound where
  | floor
  | trunc
deriving DecidableEq, Repr

/-- The parameters that the spec's model "takes as arguments" (00_scope.md R6). They are the fourth
group of the core's state (10_state.md R20), so State holds them and no step writes them. -/
structure Params where
  /-- `HIST_W`: the width of the signed sample datapath. -/
  histW : Nat
  /-- `MAX_BLOCKS`: the capacity of the block store. -/
  maxBlocks : Nat
  /-- `RATE_TABLE`: samples per tick for each rate index; 0 means never. -/
  rateTable : Vector Nat 32
  /-- `SCALE_ROUND`. -/
  scaleRound : ScaleRound
deriving DecidableEq, Repr

/-- `SRC_ADDR_W` (00_scope.md R6, decision D35). -/
abbrev srcAddrW : Nat := 32

/-- `ACC_W`: the width of the filter accumulator (00_scope.md R6). -/
def Params.accW (p : Params) : Nat := p.histW + 8

/-- The values R6 and R160 allow the parameters: `HIST_W` at least 18; `MAX_BLOCKS` from 1 to
2^31 − 1; table entry 0 is 0, entry 31 is 1, and the others lie in [1, 2048]. -/
abbrev Params.wf (p : Params) : Prop :=
  18 ≤ p.histW ∧ 1 ≤ p.maxBlocks ∧ p.maxBlocks ≤ 2 ^ 31 - 1 ∧
  p.rateTable[0] = 0 ∧ p.rateTable[31] = 1 ∧
  ∀ i : Fin 32, i ≠ 0 → 1 ≤ p.rateTable[i] ∧ p.rateTable[i] ≤ 2048

/-- FREE VALUE (log 2): `MAX_BLOCKS` less 1. Decision D6 leaves the capacity OPEN. -/
opaque Config.maxBlocksLessOne : Fin 2147483647

/-- FREE VALUE (log 3): the record that an entry of the block store holds before a LOAD step writes
it. 10_state.md R42 and R48 leave it unspecified. -/
opaque Config.unspecifiedBlock : Nat → BlockRec

/-- FREE VALUE (log 8): what a 32-bit read of a signed `HIST_W`-bit register gives when `HIST_W` is
over 32 and the value does not fit 32 bits. R31 and R36 define the read by sign extension only. -/
opaque Config.wideRead : Nat → Int → Word

/-- The default `RATE_TABLE` of 42_envelope.md R160. PRESUMED: its entries 1 to 30 are, in the
spec's own words, from general knowledge (log 1). -/
def Config.defaultRateTable : Vector Nat 32 :=
  #v[0, 2048, 1536, 1280, 1024, 768, 640, 512,
     384, 320, 256, 192, 160, 128, 96, 80,
     64, 48, 40, 32, 24, 20, 16, 12,
     10, 8, 6, 5, 4, 3, 2, 1]

/-- The parameters' defaults (00_scope.md R6); `MAX_BLOCKS` is OPEN and has none. -/
def Config.defaultParams : Params where
  histW := 32
  maxBlocks := Config.maxBlocksLessOne.val + 1
  rateTable := Config.defaultRateTable
  scaleRound := .floor

end Sys2Proof
end

