-- ==== Sys2Proof/Machine/State.lean ====
section
/-! DEFINITION. The state of the core and its host (10_state.md), the reasons a step can stop, and the
state after reset (10_state.md R48). -/

namespace Sys2Proof.Machine

/-- The driver's `STATE` (10_state.md R23, 43_playback_driver.md R200). -/
inductive DriverState where
  | idle
  | loading
  | play
  | done
  | error
deriving DecidableEq, Repr

/-- `ENV_KIND` (10_state.md R23). -/
inductive EnvKind where
  | gainDirect
  | gainCustom
  | adsr
deriving DecidableEq, Repr

/-- The error codes (60_exceptions.md R230). `formatFilter` is reserved and never raised. -/
inductive ErrCode where
  | none
  | formatTruncated
  | configRate
  | configEndovr
  | configLoopRange
  | contractPull
  | contractCmd
  | overflow
  | capacity
  | formatFilter
deriving DecidableEq, Repr

/-- `CFG_ADSR` (R24). -/
structure CfgAdsr where
  present : Bool
  value : BitVec 16
deriving DecidableEq, Repr

/-- `CFG_GAIN` (R25). -/
structure CfgGain where
  present : Bool
  value : Byte
deriving DecidableEq, Repr

/-- `CFG_ENDOVR` (R26). -/
structure CfgEndovr where
  present : Bool
  count : BitVec 31
deriving DecidableEq, Repr

/-- `CFG_LOOP` (R27). -/
structure CfgLoop where
  present : Bool
  index : BitVec 31
deriving DecidableEq, Repr

/-- The configuration registers (R24 to R30). -/
structure Cfg where
  adsr : CfgAdsr
  gain : CfgGain
  endovr : CfgEndovr
  loop : CfgLoop
  rate : Word
  offset : Word
  srclen : Word
deriving DecidableEq, Repr

/-- The driver's registers: `STATE`, the other fields of `STATUS`, `ERR_INFO` (R34), `OUT_SAMPLE`
(R31, a signed `HIST_W`-bit value) and `OUT_COUNT` (R37). -/
structure Driver where
  status : DriverState
  outValid : Bool
  errCode : ErrCode
  errInfo : Word
  outSample : Int
  outCount : BitVec 64
deriving DecidableEq, Repr

/-- The Block Decoder's state: `LD_PTR` (R43), `NBLK` (R32) and the block store (R42). Entry `k` of
the list is `BLK[k]`; the entries past its end hold what nothing has written (log 3). -/
structure Loader where
  ldPtr : BitVec 33
  nblk : BitVec 31
  blk : List BlockRec
deriving DecidableEq, Repr

/-- The sample stream's state: the cursor (R35) and the history (R36, signed `HIST_W`-bit values). -/
structure Stream where
  curBlock : BitVec 31
  curNibble : BitVec 4
  prev : Int
  prev2 : Int
deriving DecidableEq, Repr

/-- The envelope registers (R43). -/
structure Env where
  kind : EnvKind
  phase : BitVec 2
  level : BitVec 12
  cnt : BitVec 12
  attackRate : BitVec 4
  decayRate : BitVec 3
  sustainLevel : BitVec 3
  sustainRate : BitVec 5
  gainRate : BitVec 5
deriving DecidableEq, Repr

/-- The source byte space (20_memory.md R60), as the bytes that differ from what an unlisted address
reads as, at strictly rising addresses. -/
abbrev Memory := List Host.Cell

/-- What the host can do (00_scope.md R11, 20_memory.md R62, 70_reset_and_hazards.md R260): a register
access of some width in bits at a byte offset, a reset, or a write of its own source bytes. -/
inductive HostOp where
  | read (width : Nat) (offset : Word)
  | write (width : Nat) (offset : Word) (value : Word)
  | reset
  | srcWrite (addr : BitVec srcAddrW) (byte : Byte)
deriving DecidableEq, Repr

/-- One coming host action: the LOAD steps the core takes before it if it is LOADING, and the action (log 5). -/
structure HostEntry where
  after : Nat
  op : HostOp
deriving DecidableEq, Repr

/-- The names of the host registers (10_state.md R21). -/
inductive HostReg where
  | ctrl
  | status
  | cfgAdsr
  | cfgGain
  | cfgEndovr
  | cfgLoop
  | cfgRate
  | cfgOffset
  | cfgSrclen
  | outSample
  | nblk
  | envLevel
  | errInfo
  | curBlock
  | curNibble
  | prev
  | prev2
  | outCountLo
  | outCountHi
  | envCnt
  | blkSel
  | blkHdr
  | blkNibHi
  | blkNibLo
deriving DecidableEq, Repr

/-- Why the machine stops. No step from a state with the invariant of Safety.lean reaches one (log 19). -/
inductive Fault where
  /-- Safe. DecodeNext on an exhausted stream: "It should fault, never return a value" (41_sample_stream.md R148). Raised by the filters. -/
  | streamExhausted
  /-- Safe. A source byte at or above `CFG_SRCLEN` (20_memory.md R61). Raised by the fetch of a block. -/
  | sourceOutOfRange
  /-- Safe. The fetched bytes are no block (40_block_decoder.md R114: they always are). Raised by the fetch of a block. -/
  | blockRejected
deriving DecidableEq, Repr

/-- Host actions and instructions that have no meaning. -/
inductive Refusal where
  /-- Safe. An instruction without a meaning; no arm of exec uses it. -/
  | notModelled (mnemonic : String)
  /-- Safe. A host access that is not 32 bits wide (10_state.md R40, 20_memory.md R65). Raised by the host's step. -/
  | hostAccessWidth
  /-- Safe. A host access whose offset is not a multiple of 4 (10_state.md R40, 20_memory.md R65). Raised by the host's step. -/
  | hostAccessMisaligned
  /-- A host write of a source byte while LOADING (20_memory.md R72). Raised by the host's step. Unsafe for a host that breaks the duty (log 15). -/
  | sourceWriteWhileLoading
deriving DecidableEq, Repr

/-- The state (10_state.md R20): the parameters, the host registers, the block store, the datapath
registers, and the host's side: its source bytes, its coming accesses, the commands it wrote during
LOADING (43_playback_driver.md R210) and the word its last register read gave. -/
structure State where
  params : Params
  cfg : Cfg
  drv : Driver
  load : Loader
  stream : Stream
  env : Env
  blkSel : BitVec 31
  src : Memory
  held : List (BitVec 2)
  host : List HostEntry
  readData : Word
deriving DecidableEq, Repr

/-! ### Named updates -/

/-- `s` with other configuration registers. -/
def State.withCfg (s : State) (x : Cfg) : State := { s with cfg := x }
/-- `s` with other driver registers. -/
def State.withDrv (s : State) (x : Driver) : State := { s with drv := x }
/-- `s` with another Block Decoder state. -/
def State.withLoad (s : State) (x : Loader) : State := { s with load := x }
/-- `s` with another cursor and history. -/
def State.withStream (s : State) (x : Stream) : State := { s with stream := x }
/-- `s` with other envelope registers. -/
def State.withEnv (s : State) (x : Env) : State := { s with env := x }
/-- `s` with another `BLK_SEL`. -/
def State.withBlkSel (s : State) (x : BitVec 31) : State := { s with blkSel := x }
/-- `s` with other source bytes. -/
def State.withSrc (s : State) (x : Memory) : State := { s with src := x }
/-- `s` with other held commands. -/
def State.withHeld (s : State) (x : List (BitVec 2)) : State := { s with held := x }
/-- `s` with other coming host accesses. -/
def State.withHost (s : State) (x : List HostEntry) : State := { s with host := x }
/-- `s` with another word on the host's read port. -/
def State.withReadData (s : State) (x : Word) : State := { s with readData := x }

/-! ### Reset -/

/-- Every piece of state after reset (10_state.md R48), at the default parameters. The source bytes,
the held commands, the host's accesses and its read port are as logs 4 to 7 say. -/
def State.reset : State where
  params := Config.defaultParams
  cfg :=
    { adsr := { present := false, value := 0 }
      gain := { present := false, value := 0 }
      endovr := { present := false, count := 0 }
      loop := { present := false, index := 0 }
      rate := 32000
      offset := 0
      srclen := 0 }
  drv :=
    { status := .idle
      outValid := false
      errCode := .none
      errInfo := 0
      outSample := 0
      outCount := 0 }
  load := { ldPtr := 0, nblk := 0, blk := [] }
  stream := { curBlock := 0, curNibble := 0, prev := 0, prev2 := 0 }
  env :=
    { kind := .gainDirect
      phase := 0
      level := 0
      cnt := 0
      attackRate := 0
      decayRate := 0
      sustainLevel := 0
      sustainRate := 0
      gainRate := 0 }
  blkSel := 0
  src := []
  held := []
  host := []
  readData := 0

end Sys2Proof.Machine
end

