-- ==== Sys2Proof/Machine/Operands.lean ====
section
/-! DEFINITION. The arithmetic of 00_scope.md R9 and every operand form of the spec: nibbles, raw
samples, filter sums, direct levels, rate indices, the level clamp, and the codes of the named values. -/

namespace Sys2Proof.Machine

/-! ### Integer operators (00_scope.md R9) -/

/-- `a << k` is `a × 2^k`. -/
def shiftLeft (a : Int) (k : Nat) : Int := a * 2 ^ k

/-- `a >> k` is `floor(a / 2^k)`: Lean's `/` on Int is the floor for a positive divisor. -/
def shiftRight (a : Int) (k : Nat) : Int := a / 2 ^ k

/-- `trunc_div(a, b)` rounds toward zero. -/
def truncDiv (a b : Int) : Int := a.tdiv b

/-- `floor_div(a, b)` rounds toward minus infinity. -/
def floorDiv (a b : Int) : Int := a.fdiv b

/-- `clamp(x) = min(max(x, 0), 0x7ff)`. -/
def clamp (x : Int) : Int := min (max x 0) 0x7ff

/-- `v` fits a signed register of `w` bits. -/
def fitsSigned (w : Nat) (v : Int) : Bool := decide (-(2 ^ (w - 1)) ≤ v ∧ v ≤ 2 ^ (w - 1) - 1)

/-! ### Nibbles and raw samples -/

/-- `sext_4(c)` (30_encoding.md R83). -/
def nibbleValue (c : BitVec 4) : Int := c.toInt

/-- `Raw(n, range) = (n << range) >> 1` (41_sample_stream.md R132). -/
def rawSample (n : Int) (range : BitVec 4) : Int := shiftRight (shiftLeft n range.toNat) 1

/-- The record of a parsed block (40_block_decoder.md R114). -/
def blockRecord (range : BitVec 4) (filter : BitVec 2) (loop ends : Bool) (nibbles : List (BitVec 4)) :
    BlockRec where
  ends := ends
  loop := loop
  filter := filter
  range := range
  nib := Vector.ofFn fun k : Fin 16 => nibbles.getD k 0

/-- The header byte of a record, as it stood in the source (10_state.md R39). -/
def recordHeader (b : BlockRec) : Byte := packHeader b.range b.filter b.loop b.ends

/-! ### The filter bank (41_sample_stream.md R133 to R137): raw, `P = PREV`, `Q = PREV2` -/

/-- FILTER1's exact sum, 64 times the real value (R134). -/
def filterSum1 (raw p : Int) : Int := 64 * raw + 60 * p

/-- FILTER2's exact sum, 64 times the real value (R135). -/
def filterSum2 (raw p q : Int) : Int := 64 * raw + 122 * p - 60 * q

/-- FILTER3's exact sum, 64 times the real value (R136). -/
def filterSum3 (raw p q : Int) : Int := 64 * raw + 115 * p - 52 * q

/-- FILTER0 (R133). -/
def filterValue0 (raw : Int) : Int := raw

/-- FILTER1 (R134): one truncation of the whole sum (R137). -/
def filterValue1 (raw p : Int) : Int := truncDiv (filterSum1 raw p) 64

/-- FILTER2 (R135). -/
def filterValue2 (raw p q : Int) : Int := truncDiv (filterSum2 raw p q) 64

/-- FILTER3 (R136). -/
def filterValue3 (raw p q : Int) : Int := truncDiv (filterSum3 raw p q) 64

/-- `Filter(filter, raw, P, Q)` (R131). -/
def filterValue (filter : BitVec 2) (raw p q : Int) : Int :=
  match filter.getLsbD 1, filter.getLsbD 0 with
  | false, false => filterValue0 raw
  | false, true => filterValue1 raw p
  | true, false => filterValue2 raw p q
  | true, true => filterValue3 raw p q

/-! ### The scaler (43_playback_driver.md R205) -/

/-- `Scale(v, L)`: the exact product divided by 2^11. -/
def scaleSample (r : ScaleRound) (v : Int) (level : BitVec 12) : Int :=
  match r with
  | .floor => shiftRight (v * level.toNat) 11
  | .trunc => truncDiv (v * level.toNat) 2048

/-! ### Envelope operands -/

/-- `zext_7(G[6:0]) << 4` (30_encoding.md R87). -/
def directLevel (g : BitVec 7) : BitVec 12 := g.setWidth 12 <<< 4

/-- The rate index of ATTACK, `attackRate × 2 + 1` (30_encoding.md R89). -/
def attackIndex (attackRate : BitVec 4) : BitVec 5 := BitVec.ofNat 5 (attackRate.toNat * 2 + 1)

/-- The rate index of DECAY, `decayRate × 2 + 16` (30_encoding.md R89). -/
def decayIndex (decayRate : BitVec 3) : BitVec 5 := BitVec.ofNat 5 (decayRate.toNat * 2 + 16)

/-- `RATE_TABLE[idx]` (42_envelope.md R160). -/
def ratePeriod (table : Vector Nat 32) (idx : BitVec 5) : Nat := table[idx.toNat]

/-- The level register holding `clamp(x)`. -/
def clampLevel (x : Int) : BitVec 12 := BitVec.ofNat 12 (clamp x).toNat

/-- `D(L) = L − 1 − ((L − 1) >> 8)` (42_envelope.md R174). -/
def decayed (l : Int) : Int := l - 1 - shiftRight (l - 1) 8

/-- SUSTAIN's threshold, `(sustainLevel + 1) × 0x100` (42_envelope.md R171). -/
def sustainThreshold (sustainLevel : BitVec 3) : Nat := (sustainLevel.toNat + 1) * 0x100

/-! ### Codes -/

/-- The code of `STATE` (10_state.md R23). -/
def driverStateCode (x : DriverState) : BitVec 3 :=
  match x with
  | .idle => 0
  | .loading => 1
  | .play => 2
  | .done => 3
  | .error => 4

/-- The code of `ENV_KIND` (10_state.md R23). -/
def envKindCode (x : EnvKind) : BitVec 2 :=
  match x with
  | .gainDirect => 0
  | .gainCustom => 1
  | .adsr => 2

/-- The numbers of the error codes (60_exceptions.md R230). -/
def errCodeNumber (x : ErrCode) : BitVec 4 :=
  match x with
  | .none => 0
  | .formatTruncated => 1
  | .configRate => 2
  | .configEndovr => 3
  | .configLoopRange => 4
  | .contractPull => 5
  | .contractCmd => 6
  | .overflow => 7
  | .capacity => 8
  | .formatFilter => 9

/-- A register with a `PRESENT` bit over a field of its low bits, as a word (10_state.md R24 to R27). -/
def packPresent {n : Nat} (present : Bool) (field : BitVec n) : Word :=
  BitVec.ofBool present ++ field.setWidth 31

/-- A signed `HIST_W`-bit register as the host reads it: sign-extended to 32 bits (10_state.md R31,
R36). A value wider than 32 bits reads as a free value (log 8). -/
def readSigned (histW : Nat) (v : Int) : Word :=
  if fitsSigned 32 v then BitVec.ofInt 32 v else Config.wideRead histW v

end Sys2Proof.Machine
end

