-- ==== Sys2Proof/Machine/Flags.lean ====
section
/-! DEFINITION. The core has no condition codes (10_state.md R46). This file holds every condition that
a step tests, and the `STATUS` word. -/

namespace Sys2Proof.Machine

/-- HasNext: `CUR_BLOCK < NBLK` (41_sample_stream.md R130). -/
def hasNext (s : State) : Bool := decide (s.stream.curBlock.toNat < s.load.nblk.toNat)

/-- `CFG_LOOP.PRESENT = 1` and `ENV_LEVEL != 0` (43_playback_driver.md R207). -/
def loopsAgain (s : State) : Bool := s.cfg.loop.present && decide (s.env.level ≠ 0)

/-- The override count is reached (40_block_decoder.md R111). -/
def countReached (s : State) : Bool := s.cfg.endovr.present && decide (s.load.nblk = s.cfg.endovr.count)

/-- Fewer than 9 bytes remain at `LD_PTR`, computed exactly (40_block_decoder.md R112). -/
def sourceExhausted (s : State) : Bool := decide (s.cfg.srclen.toNat < s.load.ldPtr.toNat + 9)

/-- The block store is full (40_block_decoder.md R113). -/
def storeFull (s : State) : Bool := decide (s.load.nblk.toNat = s.params.maxBlocks)

/-- `CFG_LOOP.PRESENT = 1` and `CFG_LOOP.INDEX >= NBLK` (40_block_decoder.md R116). -/
def loopOutOfRange (s : State) : Bool :=
  s.cfg.loop.present && decide (s.load.nblk.toNat ≤ s.cfg.loop.index.toNat)

/-- `CFG_ENDOVR.PRESENT = 1` and `CFG_ENDOVR.COUNT = 0` (60_exceptions.md R242). -/
def endovrZero (s : State) : Bool := s.cfg.endovr.present && decide (s.cfg.endovr.count = 0)

/-- A configuration write takes effect: `STATE` is IDLE or DONE (10_state.md R41). -/
def cfgWritable (s : State) : Bool := s.drv.status == .idle || s.drv.status == .done

/-- The tick of `Tick(idx)`: the period is not 0 and the count, with this call, reaches it (42_envelope.md R161). -/
def tickDue (table : Vector Nat 32) (idx : BitVec 5) (cnt : BitVec 12) : Bool :=
  decide (ratePeriod table idx ≠ 0 ∧ ratePeriod table idx ≤ cnt.toNat + 1)

/-- ATTACK's exit condition (42_envelope.md R170). -/
def attackEnds (level : BitVec 12) : Bool := decide (0x7e0 ≤ level.toNat)

/-- DECAY's exit condition (42_envelope.md R171). -/
def decayEnds (sustainLevel : BitVec 3) (level : BitVec 12) : Bool :=
  decide (level.toNat ≤ sustainThreshold sustainLevel)

/-- SUSTAIN's exit condition (42_envelope.md R172). -/
def sustainEnds (level : BitVec 12) : Bool := decide (level = 0)

/-- The `STATUS` word (10_state.md R23). -/
def statusWord (s : State) : Word :=
  (0 : BitVec 20) ++ s.env.phase ++ envKindCode s.env.kind ++ errCodeNumber s.drv.errCode ++
    BitVec.ofBool s.drv.outValid ++ driverStateCode s.drv.status

end Sys2Proof.Machine
end

