-- ==== Sys2Proof/Machine/Ops.lean ====
section
/-! DEFINITION. The shared operations: source bytes, the block store, the host registers, entering the
error state, holding a command, and reset. -/

namespace Sys2Proof.Machine

/-! ### Source bytes (20_memory.md R60) -/

/-- What an address that the memory does not list reads as. DESIGN CHOICE (log 4). -/
def unlistedByte : Byte := 0

/-- The byte at `a`. -/
def Memory.read : Memory → Nat → Byte
  | [], _ => unlistedByte
  | (b, v) :: m, a => if a = b then v else Memory.read m a

/-- The memory with `v` at `a`, in canonical form. -/
def Memory.write : Memory → Nat → Byte → Memory
  | [], a, v => if v = unlistedByte then [] else [(a, v)]
  | (b, w) :: m, a, v =>
    if a < b then (if v = unlistedByte then (b, w) :: m else (a, v) :: (b, w) :: m)
    else if a = b then (if v = unlistedByte then m else (a, v) :: m)
    else (b, w) :: Memory.write m a v

/-- The bytes of a list at rising addresses from `a`. -/
def Memory.writeList : Memory → Nat → List Byte → Memory
  | m, _, [] => m
  | m, a, v :: vs => Memory.writeList (m.write a v) (a + 1) vs

/-- Canonical from address `lo` on: addresses rising and inside the 32-bit space, no entry equal to
what an unlisted address reads as. -/
def Memory.wfFrom : Nat → Memory → Bool
  | _, [] => true
  | lo, (a, v) :: m => decide (lo ≤ a ∧ a < 2 ^ srcAddrW ∧ v ≠ unlistedByte) && Memory.wfFrom (a + 1) m

/-- The canonical form of the source bytes. -/
def Memory.wf (m : Memory) : Bool := Memory.wfFrom 0 m

/-- `MemRead(a, 1)`: only below `CFG_SRCLEN` (20_memory.md R60, R61). -/
def memRead (s : State) (a : Nat) : Option Byte :=
  if a < s.cfg.srclen.toNat then some (s.src.read a) else none

/-- `n` one-byte reads at rising addresses (20_memory.md R66). -/
def memReadBytes (s : State) : Nat → Nat → Option (List Byte)
  | _, 0 => some []
  | a, n + 1 =>
    match memRead s a, memReadBytes s (a + 1) n with
    | some b, some bs => some (b :: bs)
    | _, _ => none

/-! ### The block store (10_state.md R42) -/

/-- `BLK[i]`; an entry nothing has written is a free value (log 3). -/
def readBlk (blk : List BlockRec) (i : Nat) : BlockRec := blk.getD i (Config.unspecifiedBlock i)

/-- `BLK[i] <- r`: the entries below `i` keep what they hold. -/
def writeBlk (blk : List BlockRec) (i : Nat) (r : BlockRec) : List BlockRec :=
  (List.range i).map (readBlk blk) ++ r :: blk.drop (i + 1)

/-- The record at the cursor (41_sample_stream.md R131). -/
def currentBlock (s : State) : BlockRec := readBlk s.load.blk s.stream.curBlock.toNat

/-! ### The error state: the single way in (60_exceptions.md R231) -/

/-- `raise Error(code, info)`. There is no return from it but reset (60_exceptions.md R235, R236). -/
def raiseError (code : ErrCode) (info : Word) (s : State) : State :=
  s.withDrv { s.drv with status := .error, errCode := code, errInfo := info, outValid := false }

/-- The OVERFLOW information word: `{CUR_BLOCK[27:0], CUR_NIBBLE[3:0]}` (60_exceptions.md R232). -/
def cursorWord (s : State) : Word := s.stream.curBlock.extractLsb' 0 28 ++ s.stream.curNibble

/-- `LD_PTR[31:0]` (60_exceptions.md R232). -/
def ldPtrWord (s : State) : Word := s.load.ldPtr.setWidth 32

/-! ### Commands written during LOADING (43_playback_driver.md R210) -/

/-- A CTRL write while LOADING is held: it joins the commands already held (log 6). -/
def holdCommand (cmd : BitVec 2) (s : State) : State := s.withHeld (s.held ++ [cmd])

/-! ### Reset, the host's way out of every state (70_reset_and_hazards.md R260 to R262) -/

/-- Every piece of state to its reset value. The parameters are fixed; the source bytes, the coming
accesses and the read port are the host's. The held commands are discarded. -/
def resetCore (s : State) : State :=
  { State.reset with params := s.params, src := s.src, host := s.host, readData := s.readData }

/-! ### Host registers -/

/-- The register at a byte offset (10_state.md R21). -/
def hostRegAt (offset : Word) : Option HostReg :=
  match offset.toNat with
  | 0x00 => some .ctrl
  | 0x04 => some .status
  | 0x08 => some .cfgAdsr
  | 0x0C => some .cfgGain
  | 0x10 => some .cfgEndovr
  | 0x14 => some .cfgLoop
  | 0x18 => some .cfgRate
  | 0x1C => some .cfgOffset
  | 0x20 => some .cfgSrclen
  | 0x24 => some .outSample
  | 0x28 => some .nblk
  | 0x2C => some .envLevel
  | 0x30 => some .errInfo
  | 0x34 => some .curBlock
  | 0x38 => some .curNibble
  | 0x3C => some .prev
  | 0x40 => some .prev2
  | 0x44 => some .outCountLo
  | 0x48 => some .outCountHi
  | 0x4C => some .envCnt
  | 0x50 => some .blkSel
  | 0x54 => some .blkHdr
  | 0x58 => some .blkNibHi
  | 0x5C => some .blkNibLo
  | _ => none

/-- The byte offset of a register (10_state.md R21). -/
def regOffset (r : HostReg) : Word :=
  match r with
  | .ctrl => 0x00
  | .status => 0x04
  | .cfgAdsr => 0x08
  | .cfgGain => 0x0C
  | .cfgEndovr => 0x10
  | .cfgLoop => 0x14
  | .cfgRate => 0x18
  | .cfgOffset => 0x1C
  | .cfgSrclen => 0x20
  | .outSample => 0x24
  | .nblk => 0x28
  | .envLevel => 0x2C
  | .errInfo => 0x30
  | .curBlock => 0x34
  | .curNibble => 0x38
  | .prev => 0x3C
  | .prev2 => 0x40
  | .outCountLo => 0x44
  | .outCountHi => 0x48
  | .envCnt => 0x4C
  | .blkSel => 0x50
  | .blkHdr => 0x54
  | .blkNibHi => 0x58
  | .blkNibLo => 0x5C

/-- `BLK_SEL < NBLK` (10_state.md R39). -/
def windowOpen (s : State) : Bool := decide (s.blkSel.toNat < s.load.nblk.toNat)

/-- The record the debug window shows. -/
def windowBlock (s : State) : BlockRec := readBlk s.load.blk s.blkSel.toNat

/-- `BLK_HDR` (10_state.md R39). -/
def windowHeader (s : State) : Word :=
  if windowOpen s then (recordHeader (windowBlock s)).setWidth 32 else 0

/-- `{c0, …, c7}`, `c0` at bits 31:28 (10_state.md R39). -/
def packCodesHi (n : Vector (BitVec 4) 16) : Word :=
  n[0] ++ n[1] ++ n[2] ++ n[3] ++ n[4] ++ n[5] ++ n[6] ++ n[7]

/-- `{c8, …, c15}`, `c8` at bits 31:28 (10_state.md R39). -/
def packCodesLo (n : Vector (BitVec 4) 16) : Word :=
  n[8] ++ n[9] ++ n[10] ++ n[11] ++ n[12] ++ n[13] ++ n[14] ++ n[15]

/-- `BLK_NIB_HI` (10_state.md R39). -/
def windowNibblesHi (s : State) : Word := if windowOpen s then packCodesHi (windowBlock s).nib else 0

/-- `BLK_NIB_LO` (10_state.md R39). -/
def windowNibblesLo (s : State) : Word := if windowOpen s then packCodesLo (windowBlock s).nib else 0

/-- The word a register reads as (10_state.md R22 to R39). -/
def readReg (s : State) (r : HostReg) : Word :=
  match r with
  | .ctrl => 0
  | .status => statusWord s
  | .cfgAdsr => packPresent s.cfg.adsr.present s.cfg.adsr.value
  | .cfgGain => packPresent s.cfg.gain.present s.cfg.gain.value
  | .cfgEndovr => packPresent s.cfg.endovr.present s.cfg.endovr.count
  | .cfgLoop => packPresent s.cfg.loop.present s.cfg.loop.index
  | .cfgRate => s.cfg.rate
  | .cfgOffset => s.cfg.offset
  | .cfgSrclen => s.cfg.srclen
  | .outSample => readSigned s.params.histW s.drv.outSample
  | .nblk => s.load.nblk.setWidth 32
  | .envLevel => s.env.level.setWidth 32
  | .errInfo => s.drv.errInfo
  | .curBlock => s.stream.curBlock.setWidth 32
  | .curNibble => s.stream.curNibble.setWidth 32
  | .prev => readSigned s.params.histW s.stream.prev
  | .prev2 => readSigned s.params.histW s.stream.prev2
  | .outCountLo => s.drv.outCount.extractLsb' 0 32
  | .outCountHi => s.drv.outCount.extractLsb' 32 32
  | .envCnt => s.env.cnt.setWidth 32
  | .blkSel => s.blkSel.setWidth 32
  | .blkHdr => windowHeader s
  | .blkNibHi => windowNibblesHi s
  | .blkNibLo => windowNibblesLo s

/-- `RegRead(offset)`: an offset the table does not list reads 0 (10_state.md R40). -/
def regRead (s : State) (offset : Word) : Word :=
  match hostRegAt offset with
  | some r => readReg s r
  | none => 0

/-- The configuration after an accepted write of `v`; reserved bits are ignored (10_state.md R24 to R30). -/
def writeCfg (c : Cfg) (r : HostReg) (v : Word) : Cfg :=
  match r with
  | .cfgAdsr => { c with adsr := { present := v.getLsbD 31, value := v.extractLsb' 0 16 } }
  | .cfgGain => { c with gain := { present := v.getLsbD 31, value := v.extractLsb' 0 8 } }
  | .cfgEndovr => { c with endovr := { present := v.getLsbD 31, count := v.extractLsb' 0 31 } }
  | .cfgLoop => { c with loop := { present := v.getLsbD 31, index := v.extractLsb' 0 31 } }
  | .cfgRate => { c with rate := v }
  | .cfgOffset => { c with offset := v }
  | .cfgSrclen => { c with srclen := v }
  | _ => c

/-- The effect of `RegWrite` on a register other than CTRL: BLK_SEL always takes the value, a
configuration register in IDLE and DONE, and a read-only register never (10_state.md R39 to R41). -/
def writeReg (s : State) (r : HostReg) (v : Word) : State :=
  match r with
  | .blkSel => s.withBlkSel (v.extractLsb' 0 31)
  | r => if cfgWritable s then s.withCfg (writeCfg s.cfg r v) else s

end Sys2Proof.Machine
end

