-- ==== Sys2Proof/Machine/Envelope.lean ====
section
/-! DEFINITION. The Envelope Engine (42_envelope.md). Every operation is a function of the envelope
registers and the rate table alone (R181). -/

namespace Sys2Proof.Machine

/-! ### Tick -/

/-- `ENV_CNT` after `Tick(idx)` (R161). -/
def tickCount (table : Vector Nat 32) (idx : BitVec 5) (cnt : BitVec 12) : BitVec 12 :=
  if ratePeriod table idx = 0 then cnt else if tickDue table idx cnt then 0 else cnt + 1

/-- `Tick(idx)`, then the level `f` gives if it ticked. -/
def onTick (table : Vector Nat 32) (idx : BitVec 5) (f : Int → Int) (e : Env) : Env :=
  { e with
    cnt := tickCount table idx e.cnt
    level := if tickDue table idx e.cnt then clampLevel (f e.level.toNat) else e.level }

/-- A phase transition: the new phase, and the counter cleared (R162). -/
def enterPhase (phase : BitVec 2) (e : Env) : Env := { e with phase := phase, cnt := 0 }

/-! ### Construction -/

/-- ConstructADSR (R164). Bit 15 is not read, and `ENV_GRATE` keeps its value. -/
def constructAdsr (decayRate : BitVec 3) (attackRate : BitVec 4) (sustainLevel : BitVec 3)
    (sustainRate : BitVec 5) (e : Env) : Env :=
  { e with
    kind := .adsr
    attackRate := attackRate
    decayRate := decayRate
    sustainLevel := sustainLevel
    sustainRate := sustainRate
    phase := 0
    level := 0
    cnt := 0 }

/-- ConstructDirect (R165). -/
def constructDirect (level : BitVec 7) (e : Env) : Env :=
  { e with kind := .gainDirect, phase := 0, level := directLevel level, cnt := 0 }

/-- ConstructCustom (R166): modes 0 and 1 start at 0x7ff, modes 2 and 3 at 0. -/
def constructCustom (mode : BitVec 2) (rate : BitVec 5) (e : Env) : Env :=
  { e with
    kind := .gainCustom
    phase := mode
    gainRate := rate
    level := if mode.getLsbD 1 then 0 else 0x7ff
    cnt := 0 }

/-- ConstructDefault (R167). -/
def constructDefault (e : Env) : Env :=
  { e with kind := .gainDirect, phase := 0, level := 0x800, cnt := 0 }

/-- Construct: ADSR before gain before the default (R163). -/
def constructEnv (c : Cfg) (e : Env) : Env :=
  if c.adsr.present then
    constructAdsr (c.adsr.value.extractLsb' 12 3) (c.adsr.value.extractLsb' 8 4)
      (c.adsr.value.extractLsb' 5 3) (c.adsr.value.extractLsb' 0 5) e
  else if c.gain.present then
    if c.gain.value.getLsbD 7 then
      constructCustom (c.gain.value.extractLsb' 5 2) (c.gain.value.extractLsb' 0 5) e
    else constructDirect (c.gain.value.extractLsb' 0 7) e
  else constructDefault e

/-! ### Advance: the tick and the level first, the phase's transition test second, on the new level,
on every Advance; at most one transition (R168) -/

/-- ATTACK's increment (R170): the fast case is the table index 31 (decision D9). -/
def attackIncrement (attackRate : BitVec 4) : Int := if attackIndex attackRate = 31 then 0x400 else 0x20

/-- AttackStep (R170). -/
def attackStep (table : Vector Nat 32) (e : Env) : Env :=
  let t := onTick table (attackIndex e.attackRate) (fun l => l + attackIncrement e.attackRate) e
  if attackEnds t.level then enterPhase 1 t else t

/-- DecayStep (R171). -/
def decayStep (table : Vector Nat 32) (e : Env) : Env :=
  let t := onTick table (decayIndex e.decayRate) decayed e
  if decayEnds e.sustainLevel t.level then enterPhase 2 t else t

/-- SustainStep (R172). -/
def sustainStep (table : Vector Nat 32) (e : Env) : Env :=
  let t := onTick table e.sustainRate decayed e
  if sustainEnds t.level then enterPhase 3 t else t

/-- ReleaseStep (R173): every Advance, no tick. -/
def releaseStep (e : Env) : Env := { e with level := clampLevel ((e.level.toNat : Int) - 8) }

/-- GainStep(0) (R176). -/
def linearDecreaseStep (table : Vector Nat 32) (rate : BitVec 5) (e : Env) : Env :=
  onTick table rate (fun l => l - 32) e

/-- GainStep(1) (R177). -/
def exponentialDecreaseStep (table : Vector Nat 32) (rate : BitVec 5) (e : Env) : Env :=
  onTick table rate (fun l => l - (shiftRight (l - 1) 8 + 1)) e

/-- GainStep(2) (R178). -/
def linearIncreaseStep (table : Vector Nat 32) (rate : BitVec 5) (e : Env) : Env :=
  onTick table rate (fun l => l + 32) e

/-- GainStep(3) (R179): the comparison uses the level before the update. -/
def bentIncreaseStep (table : Vector Nat 32) (rate : BitVec 5) (e : Env) : Env :=
  onTick table rate (fun l => l + if l < 0x600 then 32 else 8) e

/-- Advance (R168, R175): the step of the kind and phase in force. -/
def advanceEnv (table : Vector Nat 32) (e : Env) : Env :=
  match e.kind with
  | .gainDirect => e
  | .gainCustom =>
    match e.phase.getLsbD 1, e.phase.getLsbD 0 with
    | false, false => linearDecreaseStep table e.gainRate e
    | false, true => exponentialDecreaseStep table e.gainRate e
    | true, false => linearIncreaseStep table e.gainRate e
    | true, true => bentIncreaseStep table e.gainRate e
  | .adsr =>
    match e.phase.getLsbD 1, e.phase.getLsbD 0 with
    | false, false => attackStep table e
    | false, true => decayStep table e
    | true, false => sustainStep table e
    | true, true => releaseStep e

/-! ### The meanings of the envelope rows -/

/-- ADSR: ConstructADSR (R164). -/
def execAdsr (decayRate : BitVec 3) (attackRate : BitVec 4) (sustainLevel : BitVec 3)
    (sustainRate : BitVec 5) (s : State) : Host.Outcome State Fault Refusal :=
  .next (s.withEnv (constructAdsr decayRate attackRate sustainLevel sustainRate s.env))

/-- GAIN_DIRECT: ConstructDirect (R165). Its Advance changes nothing (R175). -/
def execGainDirect (level : BitVec 7) (s : State) : Host.Outcome State Fault Refusal :=
  .next (s.withEnv (constructDirect level s.env))

/-- ENV_DEFAULT: ConstructDefault (R167). -/
def execEnvDefault (s : State) : Host.Outcome State Fault Refusal :=
  .next (s.withEnv (constructDefault s.env))

/-- GAIN_LINEAR_DECREASE: GainStep(0) at the encoded rate, which START put in `ENV_GRATE` (R166, R176, log 13). -/
def execGainLinearDecrease (rate : BitVec 5) (s : State) : Host.Outcome State Fault Refusal :=
  .next (s.withEnv (linearDecreaseStep s.params.rateTable rate s.env))

/-- GAIN_EXPONENTIAL_DECREASE: GainStep(1) (R177). -/
def execGainExponentialDecrease (rate : BitVec 5) (s : State) : Host.Outcome State Fault Refusal :=
  .next (s.withEnv (exponentialDecreaseStep s.params.rateTable rate s.env))

/-- GAIN_LINEAR_INCREASE: GainStep(2) (R178). -/
def execGainLinearIncrease (rate : BitVec 5) (s : State) : Host.Outcome State Fault Refusal :=
  .next (s.withEnv (linearIncreaseStep s.params.rateTable rate s.env))

/-- GAIN_BENT_INCREASE: GainStep(3) (R179). -/
def execGainBentIncrease (rate : BitVec 5) (s : State) : Host.Outcome State Fault Refusal :=
  .next (s.withEnv (bentIncreaseStep s.params.rateTable rate s.env))

/-- ADSR_ATTACK: AttackStep (R170). -/
def execAdsrAttack (s : State) : Host.Outcome State Fault Refusal :=
  .next (s.withEnv (attackStep s.params.rateTable s.env))

/-- ADSR_DECAY: DecayStep (R171). -/
def execAdsrDecay (s : State) : Host.Outcome State Fault Refusal :=
  .next (s.withEnv (decayStep s.params.rateTable s.env))

/-- ADSR_SUSTAIN: SustainStep (R172). -/
def execAdsrSustain (s : State) : Host.Outcome State Fault Refusal :=
  .next (s.withEnv (sustainStep s.params.rateTable s.env))

/-- ADSR_RELEASE: ReleaseStep (R173). -/
def execAdsrRelease (s : State) : Host.Outcome State Fault Refusal :=
  .next (s.withEnv (releaseStep s.env))

end Sys2Proof.Machine
end

