-- ==== Sys2Proof/Machine/Loader.lean ====
section
/-! DEFINITION. The Block Decoder (40_block_decoder.md): LoadInit, LoadComplete and PARSE_BLOCK, the
part of a LOAD step that parses. The checks before it stand in Machine/Fetch.lean. -/

namespace Sys2Proof.Machine

/-- LoadInit (R110). The block store is not cleared. -/
def loadInit (s : State) : State :=
  (s.withLoad { s.load with ldPtr := s.cfg.offset.setWidth 33, nblk := 0 }).withDrv
    { s.drv with status := .loading }

/-- LoadComplete (R116). -/
def loadComplete (s : State) : State :=
  if loopOutOfRange s then raiseError .configLoopRange (s.cfg.loop.index.setWidth 32) s
  else s.withDrv { s.drv with status := .play }

/-- The record kept: `BLK[NBLK] <- rec`, `NBLK + 1`, `LD_PTR + 9` (R111). -/
def keepBlock (r : BlockRec) (s : State) : State :=
  s.withLoad
    { ldPtr := s.load.ldPtr + 9
      nblk := s.load.nblk + 1
      blk := writeBlk s.load.blk s.load.nblk.toNat r }

/-- PARSE_BLOCK (R111, R113 to R115): CAPACITY if the store is full; else the record is kept, and an
`end` block completes the LOAD. -/
def execParseBlock (range : BitVec 4) (filter : BitVec 2) (loop ends : Bool) (nibbles : List (BitVec 4))
    (s : State) : Host.Outcome State Fault Refusal :=
  if storeFull s then .next (raiseError .capacity (ldPtrWord s) s)
  else
    if ends then .next (loadComplete (keepBlock (blockRecord range filter loop ends nibbles) s))
    else .next (keepBlock (blockRecord range filter loop ends nibbles) s)

end Sys2Proof.Machine
end

