-- ==== Sys2Proof/Machine/Stream.lean ====
section
/-! DEFINITION. The Predictive Sample Stream (41_sample_stream.md): DecodeNext with each of the four
filters, the cursor and Loop. A filter row's operands are the header's fields; its meaning is the
DecodeNext that this header selects (R131, log 12). -/

namespace Sys2Proof.Machine

/-- What DecodeNext gives: the state with the sample in `PREV`, the error state (R138), or nothing,
on an exhausted stream (R148). -/
inductive DecodeResult where
  | sample (s : State)
  | raised (s : State)
  | exhausted
deriving DecidableEq, Repr

/-- AdvanceCursor (R140). -/
def advanceCursor (t : Stream) : Stream :=
  if t.curNibble = 15 then { t with curNibble := 0, curBlock := t.curBlock + 1 }
  else { t with curNibble := t.curNibble + 1 }

/-- The history update (R139): both writes, in this order. -/
def pushHistory (v : Int) (t : Stream) : Stream := { t with prev2 := t.prev, prev := v }

/-- The nibble at the cursor, signed (R131). -/
def currentNibble (s : State) : Int := nibbleValue ((currentBlock s).nib[s.stream.curNibble.toNat])

/-- DecodeNext after the filter has given `v` (R131, R138 to R140). -/
def commitSample (v : Int) (s : State) : DecodeResult :=
  if fitsSigned s.params.histW v then .sample (s.withStream (advanceCursor (pushHistory v s.stream)))
  else .raised (raiseError .overflow (cursorWord s) s)

/-- DecodeNext with the header's `range` and filter (R131); its precondition is HasNext (R148). -/
def decodeWith (filter : BitVec 2) (range : BitVec 4) (s : State) : DecodeResult :=
  if hasNext s then
    commitSample (filterValue filter (rawSample (currentNibble s) range) s.stream.prev s.stream.prev2) s
  else .exhausted

/-- DecodeNext with the header of the block at the cursor (R131). -/
def decodeNext (s : State) : DecodeResult := decodeWith (currentBlock s).filter (currentBlock s).range s

/-- DecodeNext as a step of its own. -/
def decodeOutcome (r : DecodeResult) : Host.Outcome State Fault Refusal :=
  match r with
  | .sample s => .next s
  | .raised s => .next s
  | .exhausted => .fault .streamExhausted

/-- FILTER0 (R133). -/
def execFilter0 (range : BitVec 4) (s : State) : Host.Outcome State Fault Refusal :=
  decodeOutcome (decodeWith 0 range s)

/-- FILTER1 (R134). -/
def execFilter1 (range : BitVec 4) (s : State) : Host.Outcome State Fault Refusal :=
  decodeOutcome (decodeWith 1 range s)

/-- FILTER2 (R135). -/
def execFilter2 (range : BitVec 4) (s : State) : Host.Outcome State Fault Refusal :=
  decodeOutcome (decodeWith 2 range s)

/-- FILTER3 (R136). -/
def execFilter3 (range : BitVec 4) (s : State) : Host.Outcome State Fault Refusal :=
  decodeOutcome (decodeWith 3 range s)

/-- Loop(i) (R146): the cursor only; the history stays. -/
def loopTo (i : BitVec 31) (s : State) : State :=
  s.withStream { s.stream with curBlock := i, curNibble := 0 }

end Sys2Proof.Machine
end

