-- ==== Sys2Proof/Machine/Commands.lean ====
section
/-! DEFINITION. The Playback Driver (43_playback_driver.md): what each command does in each `STATE`
(R200), emit, and the loop decision. -/

namespace Sys2Proof.Machine

/-- The registers START initialises before the LOAD (R202): the envelope, the history, the cursor,
`OUT_VALID` and `OUT_COUNT`. -/
def initSession (s : State) : State :=
  ((s.withEnv (constructEnv s.cfg s.env)).withStream
    { curBlock := 0, curNibble := 0, prev := 0, prev2 := 0 }).withDrv
    { s.drv with outValid := false, outCount := 0 }

/-- Start (R202): the two configuration checks in order (60_exceptions.md R242), then the session. -/
def startSession (s : State) : State :=
  if s.cfg.rate = 0 then raiseError .configRate 0 s
  else if endovrZero s then raiseError .configEndovr 0 s
  else loadInit (initSession s)

/-- emit(o) (R204). -/
def emitSample (o : Int) (s : State) : State :=
  s.withDrv { s.drv with outSample := o, outValid := true, outCount := s.drv.outCount + 1 }

/-- The rest of a PULL after DecodeNext (R203): the sample, which `PREV` now holds, is scaled by the
level before the Advance (R211), emitted, and the envelope advances once. -/
def finishPull (s : State) : State :=
  (emitSample (scaleSample s.params.scaleRound s.stream.prev s.env.level) s).withEnv
    (advanceEnv s.params.rateTable s.env)

/-- DecodeNext, Scale, emit and Advance (R203); a raise ends the step (60_exceptions.md R231). -/
def pullSample (s : State) : Host.Outcome State Fault Refusal :=
  match decodeNext s with
  | .sample t => .next (finishPull t)
  | .raised t => .next t
  | .exhausted => .fault .streamExhausted

/-- The end of the session (R203, R207): DONE, and nothing emitted. -/
def endSession (s : State) : State := s.withDrv { s.drv with status := .done, outValid := false }

/-- Pull (R203), with the loop decision (R207). -/
def pullStep (s : State) : Host.Outcome State Fault Refusal :=
  if hasNext s then pullSample s
  else if loopsAgain s then pullSample (loopTo s.cfg.loop.index s)
  else .next (endSession s)

/-- NOP (R201). While LOADING it is held like any command. -/
def execNop (s : State) : Host.Outcome State Fault Refusal :=
  match s.drv.status with
  | .loading => .next (holdCommand 0 s)
  | .idle => .next s
  | .play => .next s
  | .done => .next s
  | .error => .next s

/-- START (R202). -/
def execStart (s : State) : Host.Outcome State Fault Refusal :=
  match s.drv.status with
  | .loading => .next (holdCommand 1 s)
  | .idle => .next (startSession s)
  | .play => .next (startSession s)
  | .done => .next (startSession s)
  | .error => .next s

/-- PULL (R203); a contract violation in IDLE and DONE, with the `STATE` value as its information
word (R200, 60_exceptions.md R232). -/
def execPull (s : State) : Host.Outcome State Fault Refusal :=
  match s.drv.status with
  | .loading => .next (holdCommand 2 s)
  | .idle => .next (raiseError .contractPull 0 s)
  | .play => pullStep s
  | .done => .next (raiseError .contractPull 3 s)
  | .error => .next s

/-- CMD_RESERVED (R209). -/
def execCmdReserved (s : State) : Host.Outcome State Fault Refusal :=
  match s.drv.status with
  | .loading => .next (holdCommand 3 s)
  | .idle => .next (raiseError .contractCmd 3 s)
  | .play => .next (raiseError .contractCmd 3 s)
  | .done => .next (raiseError .contractCmd 3 s)
  | .error => .next s

end Sys2Proof.Machine
end

