-- ==== Sys2Proof/Machine/Dispatch.lean ====
section
/-! DEFINITION. The meaning of every operation of the opcode table. -/

namespace Sys2Proof.Machine

def exec (i : Instr) (s : State) : Host.Outcome State Fault Refusal :=
  match i with
  -- the Block Decoder
  | .parseBlock range filter loop ends nibbles => Sys2Proof.Machine.execParseBlock range filter loop ends nibbles s
  -- the filter bank; the header's loop and end flags are read by no filter rule
  | .filter0 range _ _ => Sys2Proof.Machine.execFilter0 range s
  | .filter1 range _ _ => Sys2Proof.Machine.execFilter1 range s
  | .filter2 range _ _ => Sys2Proof.Machine.execFilter2 range s
  | .filter3 range _ _ => Sys2Proof.Machine.execFilter3 range s
  -- the envelope
  | .gainDirect level => Sys2Proof.Machine.execGainDirect level s
  | .gainLinearDecrease rate => Sys2Proof.Machine.execGainLinearDecrease rate s
  | .gainExponentialDecrease rate => Sys2Proof.Machine.execGainExponentialDecrease rate s
  | .gainLinearIncrease rate => Sys2Proof.Machine.execGainLinearIncrease rate s
  | .gainBentIncrease rate => Sys2Proof.Machine.execGainBentIncrease rate s
  | .adsr _ decayRate attackRate sustainLevel sustainRate => Sys2Proof.Machine.execAdsr decayRate attackRate sustainLevel sustainRate s
  | .adsrAttack => Sys2Proof.Machine.execAdsrAttack s
  | .adsrDecay => Sys2Proof.Machine.execAdsrDecay s
  | .adsrSustain => Sys2Proof.Machine.execAdsrSustain s
  | .adsrRelease => Sys2Proof.Machine.execAdsrRelease s
  | .envDefault => Sys2Proof.Machine.execEnvDefault s
  -- the commands
  | .nop => Sys2Proof.Machine.execNop s
  | .start => Sys2Proof.Machine.execStart s
  | .pull => Sys2Proof.Machine.execPull s
  | .cmdReserved => Sys2Proof.Machine.execCmdReserved s

end Sys2Proof.Machine
end

