-- ==== Sys2Proof/Machine/Fetch.lean ====
section
/-! DEFINITION. What the next step does: which agent moves, and which instruction it runs
(00_scope.md R11, 40_block_decoder.md R111, 43_playback_driver.md R210), and how an encoded input is
put where the next step runs it. -/

namespace Sys2Proof.Machine

/-- The next step: an instruction that runs in a state, or a step that is complete without one. -/
inductive Action where
  | run (i : Instr) (s : State)
  | settled (o : Host.Outcome State Fault Refusal)

/-- The block at `LD_PTR`: its 9 bytes, decoded (40_block_decoder.md R114). -/
def fetchBlock (s : State) : Action :=
  match memReadBytes s s.load.ldPtr.toNat 9 with
  | none => .settled (.fault .sourceOutOfRange)
  | some bytes =>
    match decode (.block bytes) with
    | .ok i => .run i s
    | .error _ => .settled (.fault .blockRejected)

/-- LoadStep (40_block_decoder.md R111): the count, exhaustion, and then the block, whose capacity
check stands in its meaning (log 18). -/
def loadAction (s : State) : Action :=
  if countReached s then .settled (.next (loadComplete s))
  else if sourceExhausted s then
    if s.cfg.endovr.present then .settled (.next (loadComplete s))
    else .settled (.next (raiseError .formatTruncated (ldPtrWord s) s))
  else fetchBlock s

/-- A host access that 20_memory.md R65 does not define is refused. -/
def accessRefusal (width : Nat) (offset : Word) : Option Refusal :=
  if width ≠ 32 then some .hostAccessWidth
  else if offset.toNat % 4 ≠ 0 then some .hostAccessMisaligned
  else none

/-- A register write (20_memory.md R66): a write to CTRL issues a command, any other write is only
itself, and one to an unlisted offset is ignored (10_state.md R40). -/
def writeAction (offset value : Word) (s : State) : Action :=
  match hostRegAt offset with
  | some .ctrl => .run (decodeCtrl value) s
  | some r => .settled (.next (writeReg s r value))
  | none => .settled (.next s)

/-- One host action. -/
def hostAction (op : HostOp) (s : State) : Action :=
  match op with
  | .read width offset =>
    match accessRefusal width offset with
    | some r => .settled (.refused r)
    | none => .settled (.next (s.withReadData (regRead s offset)))
  | .write width offset value =>
    match accessRefusal width offset with
    | some r => .settled (.refused r)
    | none => writeAction offset value s
  | .reset => .settled (.next (resetCore s))
  | .srcWrite addr byte =>
    if s.drv.status = .loading then .settled (.refused .sourceWriteWhileLoading)
    else .settled (.next (s.withSrc (s.src.write addr.toNat byte)))

/-- While LOADING: a host action whose turn has come, or a LOAD step (70_reset_and_hazards.md R276). -/
def loadingAction (s : State) : Action :=
  match s.host with
  | [] => loadAction s
  | e :: rest =>
    match e.after with
    | 0 => hostAction e.op (s.withHost rest)
    | n + 1 => loadAction (s.withHost ({ e with after := n } :: rest))

/-- Otherwise: the commands held during LOADING in their order, then the host's next action. With
neither, the core takes no step and all its state is kept (60_exceptions.md R245, log 9). -/
def waitingAction (s : State) : Action :=
  match s.held with
  | c :: rest => .run (decodeCmd c) (s.withHeld rest)
  | [] =>
    match s.host with
    | e :: rest => hostAction e.op (s.withHost rest)
    | [] => .settled (.next s)

/-- What the next step does. -/
def nextAction (s : State) : Action :=
  match s.drv.status with
  | .loading => loadingAction s
  | .idle => waitingAction s
  | .play => waitingAction s
  | .done => waitingAction s
  | .error => waitingAction s

/-! ### Placing an encoded input where the next step runs it (log 11) -/

/-- The host's next action is a write of `w` to CTRL. -/
def placeCommand (w : Word) (s : State) : State :=
  match s.held with
  | [] => s.withHost ({ after := 0, op := .write 32 0 w } :: s.host)
  | _ :: _ =>
    if s.drv.status = .loading then s.withHost ({ after := 0, op := .write 32 0 w } :: s.host)
    else s.withHeld (w.extractLsb' 0 2 :: s.held)

/-- A session in PLAY at the first nibble of a block with header `h` and zero data, and a PULL. -/
def placePull (h : Byte) (s : State) : State :=
  placeCommand 2
    (((s.withLoad
        { s.load with
          nblk := if s.load.nblk = 0 then 1 else s.load.nblk
          blk := writeBlk s.load.blk 0
            (blockRecord (headerRange h) (headerFilter h) (headerLoop h) (headerEnd h) []) }).withStream
      { s.stream with curBlock := 0, curNibble := 0 }).withDrv
      { s.drv with status := .play, errCode := .none })

/-- IDLE with an accepted rate and no override, the envelope configuration given, and a START. -/
def placeStart (a : CfgAdsr) (g : CfgGain) (s : State) : State :=
  placeCommand 1
    ((s.withCfg
        { s.cfg with
          adsr := a
          gain := g
          endovr := { s.cfg.endovr with present := false }
          rate := if s.cfg.rate = 0 then 32000 else s.cfg.rate }).withDrv
      { s.drv with status := .idle, outValid := false, errCode := .none })

/-- LOADING with the bytes at `LD_PTR` (at 0 if they would not fit below 2^32), `CFG_SRCLEN` past
them, no override, and the core to move. -/
def placeBlock (bytes : List Byte) (s : State) : State :=
  let ptr : Nat := if s.load.ldPtr.toNat + bytes.length < 2 ^ srcAddrW then s.load.ldPtr.toNat else 0
  let len : Nat := if s.cfg.srclen.toNat < ptr + bytes.length then ptr + bytes.length else s.cfg.srclen.toNat
  let queue : List HostEntry :=
    match s.host with
    | [] => []
    | e :: rest => { e with after := e.after + 1 } :: rest
  ((((s.withCfg
        { s.cfg with
          endovr := { s.cfg.endovr with present := false }
          srclen := BitVec.ofNat 32 len }).withLoad
      { s.load with ldPtr := BitVec.ofNat 33 ptr }).withDrv
      { s.drv with status := .loading, outValid := false, errCode := .none }).withSrc
      (s.src.writeList ptr bytes)).withHost queue

/-- `s` with an encoded input put where the next step runs it. -/
def placeInput (inp : Input) (s : State) : State :=
  match inp with
  | .block bytes => placeBlock bytes s
  | .header h => placePull h s
  | .gain g =>
    if g.getLsbD 7 then
      placePull 0 (s.withEnv
        { s.env with kind := .gainCustom, phase := g.extractLsb' 5 2, gainRate := g.extractLsb' 0 5 })
    else placeStart { s.cfg.adsr with present := false } { present := true, value := g } s
  | .adsr a => placeStart { present := true, value := a } s.cfg.gain s
  | .phase p => placePull 0 (s.withEnv { s.env with kind := .adsr, phase := p })
  | .config a g => placeStart { s.cfg.adsr with present := a } { s.cfg.gain with present := g } s
  | .ctrl w => placeCommand w s

end Sys2Proof.Machine
end

