-- ==== Sys2Proof/Machine/Step.lean ====
section
/-! DEFINITION. One step of the core and its host, and placing the instruction that the next step runs. -/

namespace Sys2Proof.Machine

/-- One step (00_scope.md R11): one host access with the command it issues, one held command, or one
LOAD step. -/
def step (s : State) : Host.Outcome State Fault Refusal :=
  match nextAction s with
  | .run i t => exec i t
  | .settled o => o

/-- `s` with the instruction of `nbits` bits of value `w` put where the next step runs it (log 11). -/
def State.withFetchWord (s : State) (nbits w : Nat) : State :=
  match tableInput nbits w with
  | some inp => placeInput inp s
  | none => s

end Sys2Proof.Machine
end

