-- ==== Sys2Proof/Machine/Assembly.lean ====
section
/-! DEFINITION. The lines of the spec's block assembly syntax (30_encoding.md R94, R95) as data, and the
source bytes and host accesses that they stand for. The text itself is not parsed (log 22). -/

namespace Sys2Proof.Machine

/-- A line of R94 or R95. A number is the value written; `nibbles` are the hex digits of `n=`, left to right. -/
inductive AsmLine where
  | block (filter : BitVec 2) (range : BitVec 4) (loop ends : Bool) (nibbles : List (BitVec 4))
  | org (a : Nat)
  | bytes (bs : List Byte)
  | offset (n : Word)
  | srclen (n : Word)
  | adsr (a : BitVec 16)
  | gain (g : Byte)
  | endblocks (n : BitVec 31)
  | loop (i : BitVec 31)
  | rate (n : Word)
  | start
  | pull (times : Nat)
deriving DecidableEq, Repr

/-- The host's accesses for one PULL: the command, then the reads of STATUS and OUT_SAMPLE (R95). -/
def pullAccesses : List HostOp := [.write 32 0x00 2, .read 32 0x04, .read 32 0x24]

/-- The 9 bytes of a block line (R94). -/
def assembleBlock (filter : BitVec 2) (range : BitVec 4) (loop ends : Bool)
    (nibbles : List (BitVec 4)) : List Byte :=
  packHeader range filter loop ends :: packNibbles nibbles

/-- The accesses of a line (R95). -/
def lineAccesses : AsmLine → List HostOp
  | .block _ _ _ _ _ => []
  | .org _ => []
  | .bytes _ => []
  | .offset n => [.write 32 0x1C n]
  | .srclen n => [.write 32 0x20 n]
  | .adsr a => [.write 32 0x08 (packPresent true a)]
  | .gain g => [.write 32 0x0C (packPresent true g)]
  | .endblocks n => [.write 32 0x10 (packPresent true n)]
  | .loop i => [.write 32 0x14 (packPresent true i)]
  | .rate n => [.write 32 0x18 n]
  | .start => [.write 32 0x00 1]
  | .pull times => (List.replicate times pullAccesses).flatten

/-- The bytes of a line. -/
def lineBytes : AsmLine → List Byte
  | .block filter range loop ends nibbles => assembleBlock filter range loop ends nibbles
  | .bytes bs => bs
  | _ => []

/-- Bytes at rising addresses from `a`. -/
def cellsFrom : Nat → List Byte → List Host.Cell
  | _, [] => []
  | a, v :: vs => (a, v) :: cellsFrom (a + 1) vs

/-- The assembled bytes with their addresses, in the order of the lines, from address `a` on (R95). A
`.org` moves the next byte and assembles none. -/
def assembleCells : List AsmLine → Nat → List Host.Cell
  | [], _ => []
  | .org b :: ls, _ => assembleCells ls b
  | l :: ls, a => cellsFrom a (lineBytes l) ++ assembleCells ls (a + (lineBytes l).length)

/-- The program's bytes written to the source memory, a later line over an earlier one. -/
def writeCells (m : Memory) (cs : List Host.Cell) : Memory :=
  cs.foldl (fun m c => Memory.write m c.1 c.2) m

/-- The address after the last assembled byte (R95); a program without bytes has none (log 22). -/
def programEnd (ls : List AsmLine) : Option Nat := (assembleCells ls 0).getLast?.map fun c => c.1 + 1

/-- Every assembled byte, and the address after the last, is a 32-bit address (log 22). -/
def programFits (ls : List AsmLine) : Bool := (assembleCells ls 0).all fun c => c.1 + 1 < 2 ^ srcAddrW

/-- `.srclen` is in the program. -/
def hasSrclen (ls : List AsmLine) : Bool :=
  ls.any fun l => match l with
    | .srclen _ => true
    | _ => false

/-- The default `CFG_SRCLEN` of a program without `.srclen`: the address after the last assembled byte;
with no byte assembled, the register is left as it is (R95, log 22). -/
def srclenDefault (ls : List AsmLine) : List HostOp :=
  if hasSrclen ls then []
  else match programEnd ls with
    | none => []
    | some e => [.write 32 0x20 (BitVec.ofNat 32 e)]

/-- The host's accesses of a program, in the order of its lines (R95). -/
def programAccesses (ls : List AsmLine) : List HostOp := srclenDefault ls ++ (ls.map lineAccesses).flatten

/-- `s` with the program's bytes in SRC and its accesses as the host's coming accesses. The host waits
for a LOAD to end: it ends after at most `MAX_BLOCKS + 1` LOAD steps (60_exceptions.md R243). -/
def loadProgram (ls : List AsmLine) (s : State) : State :=
  (s.withSrc (writeCells s.src (assembleCells ls 0))).withHost
    ((programAccesses ls).map fun op => { after := s.params.maxBlocks + 1, op := op })

end Sys2Proof.Machine
end

