-- ==== Sys2Proof/Safety.lean ====
section
/-! DEFINITION. What a safe state is, and the words that claims about runs are stated in. -/

namespace Sys2Proof.Machine

/-! ### The invariant of the core's states -/

/-- The block store and `NBLK`: no more records than the store holds (40_block_decoder.md R113), and
every retained block was written (R118). -/
abbrev State.storeInRange (s : State) : Prop :=
  s.load.nblk.toNat ≤ s.load.blk.length ∧ s.load.blk.length ≤ s.params.maxBlocks

/-- The cursor: `CUR_BLOCK` in [0, `NBLK`] (10_state.md R35), at nibble 0 when the stream is exhausted
(41_sample_stream.md R130). -/
abbrev State.cursorInRange (s : State) : Prop :=
  s.stream.curBlock.toNat ≤ s.load.nblk.toNat ∧
  (s.stream.curBlock.toNat = s.load.nblk.toNat → s.stream.curNibble = 0)

/-- The history and the output fit `HIST_W` signed bits (41_sample_stream.md R138, 43_playback_driver.md R205). -/
abbrev State.samplesFit (s : State) : Prop :=
  fitsSigned s.params.histW s.stream.prev ∧ fitsSigned s.params.histW s.stream.prev2 ∧
  fitsSigned s.params.histW s.drv.outSample

/-- In PLAY a loop index names a retained block (40_block_decoder.md R116, 41_sample_stream.md R146). -/
abbrev State.loopInRange (s : State) : Prop :=
  s.drv.status = .play → s.cfg.loop.present = true → s.cfg.loop.index.toNat < s.load.nblk.toNat

/-- While LOADING, block `NBLK` starts at `CFG_OFFSET + 9 × NBLK` (30_encoding.md R93), and an override
count is not passed (40_block_decoder.md R111). -/
abbrev State.loadInStep (s : State) : Prop :=
  s.drv.status = .loading →
    s.load.ldPtr.toNat = s.cfg.offset.toNat + 9 * s.load.nblk.toNat ∧
    (s.cfg.endovr.present = true → s.load.nblk.toNat ≤ s.cfg.endovr.count.toNat)

/-- The level (42_envelope.md R180): a multiple of 16 up to 0x800 in Gain-Direct, whose phase is 0
(10_state.md R23), and at most 0x7ff otherwise; 0 in RELEASE (R173); the counter in [0, 2047]
(10_state.md R38). -/
abbrev Env.inRange (e : Env) : Prop :=
  (e.kind = .gainDirect → e.phase = 0 ∧ e.level.toNat % 16 = 0 ∧ e.level.toNat ≤ 0x800) ∧
  (e.kind ≠ .gainDirect → e.level.toNat ≤ 0x7ff) ∧
  (e.kind = .adsr → e.phase = 3 → e.level = 0) ∧
  e.cnt.toNat ≤ 2047

/-- `ERR_CODE` is an error exactly in ERROR (60_exceptions.md R231, R235), never FORMAT_FILTER (R230),
and `OUT_VALID` is 1 in PLAY only (10_state.md R23, 70_reset_and_hazards.md R269). -/
abbrev Driver.consistent (d : Driver) : Prop :=
  (d.status = .error ↔ d.errCode ≠ .none) ∧ d.errCode ≠ .formatFilter ∧
  (d.outValid = true → d.status = .play)

/-- The invariant: it rules out the states that no run of the core reaches. -/
abbrev State.Inv (s : State) : Prop :=
  s.params.wf ∧ Memory.wf s.src = true ∧ s.storeInRange ∧ s.cursorInRange ∧ s.samplesFit ∧
  s.loopInRange ∧ s.loadInStep ∧ s.env.inRange ∧ s.drv.consistent

/-- A step is safe when it is no fault. -/
abbrev SafeStep (s : State) : Prop := ∀ f : Fault, step s ≠ .fault f

/-! ### Whose turn it is -/

/-- The host's action `op` is the next step: in LOADING its delay is over, elsewhere no command is held. -/
abbrev HostTurn (s : State) (op : HostOp) (rest : List HostEntry) : Prop :=
  ∃ n : Nat, s.host = { after := n, op := op } :: rest ∧
    (s.drv.status = .loading → n = 0) ∧ (s.drv.status ≠ .loading → s.held = [])

/-- A LOAD step is the next step; `t` is the state it runs in, with one step less to wait for the host. -/
abbrev LoadTurn (s t : State) : Prop :=
  s.drv.status = .loading ∧
  ((s.host = [] ∧ t = s) ∨
   ∃ (n : Nat) (op : HostOp) (rest : List HostEntry),
     s.host = { after := n + 1, op := op } :: rest ∧ t = s.withHost ({ after := n, op := op } :: rest))

/-! ### Runs -/

/-- `n` runs of one instruction, one after the other. -/
def execTimes (i : Instr) : Nat → State → Host.Outcome State Fault Refusal
  | 0, s => .next s
  | n + 1, s =>
    match exec i s with
    | .next t => execTimes i n t
    | .fault f => .fault f
    | .refused r => .refused r

/-- The samples from the cursor to the end of the stream (43_playback_driver.md R208). -/
def samplesLeft (s : State) : Nat :=
  16 * (s.load.nblk.toNat - s.stream.curBlock.toNat) - s.stream.curNibble.toNat

/-- The operation that a PULL's Advance runs (42_envelope.md R168): the gain byte in force, whose mode
and rate `ENV_PHASE` and `ENV_GRATE` hold, or the ADSR phase; none for Gain-Direct (R175). -/
def envelopeInput (e : Env) : Option Input :=
  match e.kind with
  | .gainDirect => none
  | .gainCustom => some (.gain (packCustomGain e.phase e.gainRate))
  | .adsr => some (.phase e.phase)

/-- The input that selects the envelope at START (42_envelope.md R163). -/
def configInput (c : Cfg) : Input :=
  if c.adsr.present then .adsr c.adsr.value
  else if c.gain.present then .gain c.gain.value
  else .config false false

end Sys2Proof.Machine
end

