-- ==== Sys2Proof/Certificates/Slice0/Obligations.lean ====
section
/-! DEFINITION. The statements for the provers: what the rules of spec/ say the core does. -/

open Sys2Proof Sys2Proof.Machine

namespace Sys2Proof.Statements

/-! ### Words the statements share -/

/-- The sample `v` fits a signed register of `w` bits (41_sample_stream.md R138). -/
abbrev Fits (w : Nat) (v : Int) : Prop := -(2 ^ (w - 1)) ≤ v ∧ v ≤ 2 ^ (w - 1) - 1

/-- The raw value of the nibble at the cursor with a header's range (41_sample_stream.md R132). -/
abbrev rawAtCursor (s : State) (range : BitVec 4) : Int :=
  (((currentBlock s).nib[s.stream.curNibble.toNat]).toInt * 2 ^ range.toNat) / 2

/-- The cursor and history after a decode of value `v` (41_sample_stream.md R139, R140). -/
abbrev streamAfter (t : Stream) (v : Int) : Stream :=
  { curBlock := if t.curNibble = 15 then t.curBlock + 1 else t.curBlock
    curNibble := if t.curNibble = 15 then 0 else t.curNibble + 1
    prev := v
    prev2 := t.prev }

/-- The state after `raise Error(code, info)` in `s` (60_exceptions.md R231). -/
abbrev errorState (code : ErrCode) (info : Word) (s : State) : State :=
  { s with drv := { s.drv with status := .error, errCode := code, errInfo := info, outValid := false } }

/-- The OVERFLOW information word at the cursor of `s` (60_exceptions.md R232). -/
abbrev overflowInfo (s : State) : Word := s.stream.curBlock.extractLsb' 0 28 ++ s.stream.curNibble

/-- `x` clamped to [0, 0x7ff] (00_scope.md R9). -/
abbrev clamped (x : Int) : Int := min (max x 0) 0x7ff

/-- Whether `Tick(idx)` with period `p` ticks from count `c` (42_envelope.md R161). -/
abbrev Ticks (p : Nat) (c : BitVec 12) : Prop := p ≠ 0 ∧ p ≤ c.toNat + 1

/-- The count after `Tick` with period `p` from count `c` (42_envelope.md R161). -/
abbrev countAfter (p : Nat) (c : BitVec 12) : BitVec 12 :=
  if p = 0 then c else if p ≤ c.toNat + 1 then 0 else c + 1

/-- The state after LoadComplete in `s` (40_block_decoder.md R116). -/
abbrev completedState (s : State) : State :=
  if s.cfg.loop.present = true ∧ s.load.nblk.toNat ≤ s.cfg.loop.index.toNat then
    errorState .configLoopRange (s.cfg.loop.index.setWidth 32) s
  else { s with drv := { s.drv with status := .play } }

/-- The state in which `s` has read its register at an offset the host named (20_memory.md R62). -/
abbrev afterRead (s : State) (rest : List HostEntry) (v : Word) : State :=
  { s with host := rest, readData := v }

/-- The configuration registers (10_state.md R41). -/
abbrev IsCfg (r : HostReg) : Prop :=
  r = .cfgAdsr ∨ r = .cfgGain ∨ r = .cfgEndovr ∨ r = .cfgLoop ∨ r = .cfgRate ∨ r = .cfgOffset ∨ r = .cfgSrclen

/-- The bits of a write that a register keeps (10_state.md R24 to R30, R39). -/
abbrev keptBits (r : HostReg) : Word :=
  match r with
  | .cfgAdsr => 0x8000FFFF
  | .cfgGain => 0x800000FF
  | .blkSel => 0x7FFFFFFF
  | _ => 0xFFFFFFFF

/-- The envelope construction of START, written out (42_envelope.md R163 to R167). -/
abbrev constructed (c : Cfg) (e : Env) : Env :=
  if c.adsr.present = true then
    { e with
      kind := .adsr
      attackRate := c.adsr.value.extractLsb' 8 4
      decayRate := c.adsr.value.extractLsb' 12 3
      sustainLevel := c.adsr.value.extractLsb' 5 3
      sustainRate := c.adsr.value.extractLsb' 0 5
      phase := 0
      level := 0
      cnt := 0 }
  else if c.gain.present = true then
    if c.gain.value.getLsbD 7 = false then
      { e with kind := .gainDirect, phase := 0, level := (c.gain.value.extractLsb' 0 7).setWidth 12 <<< 4, cnt := 0 }
    else
      { e with
        kind := .gainCustom
        phase := c.gain.value.extractLsb' 5 2
        gainRate := c.gain.value.extractLsb' 0 5
        level := if (c.gain.value.extractLsb' 5 2).toNat < 2 then 0x7ff else 0
        cnt := 0 }
  else { e with kind := .gainDirect, phase := 0, level := 0x800, cnt := 0 }

/-- What the host can see of a session besides the cursor and `ERR_INFO`: the driver's state, the
samples, the history and the envelope (41_sample_stream.md R147). -/
abbrev SameSound (s t : State) : Prop :=
  s.drv.status = t.drv.status ∧ s.drv.outValid = t.drv.outValid ∧ s.drv.errCode = t.drv.errCode ∧
  s.drv.outSample = t.drv.outSample ∧ s.drv.outCount = t.drv.outCount ∧
  s.stream.prev = t.stream.prev ∧ s.stream.prev2 = t.stream.prev2 ∧ s.env = t.env

end Sys2Proof.Statements

open Sys2Proof.Statements

/-! ## Encodings -/

/-- 30_encoding.md R80 to R91: no bit of an instruction's operands is lost in its encoding. -/
def Obligations.DecodeUndoesEncode : Prop :=
  ∀ i : Instr, i.wellFormed = true → decode (encode i) = .ok i

/-- 30_encoding.md R80 to R92: every input that is an instruction, but for the ignored bits of CTRL,
is the encoding of that instruction, and the instruction is well formed. -/
def Obligations.EncodeUndoesDecode : Prop :=
  ∀ (inp : Input) (i : Instr), decode inp = .ok i →
    i.wellFormed = true ∧ ((∀ w : Word, inp ≠ .ctrl w) → encode i = inp)

/-- 30_encoding.md R80, R91, R92: exactly these inputs are instructions: a block of 9 bytes ("the block
format has no reserved, illegal or hint encodings"), neither envelope configuration present, and every
header byte, gain byte, ADSR word, phase and CTRL word. -/
def Obligations.DecodeAcceptsExactlyTheInstructions : Prop :=
  ∀ inp : Input, (∃ i, decode inp = .ok i) ↔
    (match inp with
      | .block bs => bs.length = 9
      | .config adsrPresent gainPresent => adsrPresent = false ∧ gainPresent = false
      | .header _ => True
      | .gain _ => True
      | .adsr _ => True
      | .phase _ => True
      | .ctrl _ => True)

/-- Words of every format written out from the spec's encodings: R114's example, vectors B4, E4, E9, E12
and E15 to E17, the phase code of 10_state.md R23, R91's PRESENT pair, and a CTRL word of R90. -/
def Obligations.WrittenWordsDecode : Prop :=
  decode (.block [0x4D, 0xF0, 0, 0, 0, 0, 0, 0, 0x07]) =
    .ok (.parseBlock 4 3 false true [15, 0, 0, 0, 0, 0, 0, 0, 0, 0, 0, 0, 0, 0, 0, 7]) ∧
  decode (.header 0x47) = .ok (.filter1 4 true true) ∧
  decode (.adsr 0x7FC0) = .ok (.adsr false 7 15 6 0) ∧
  decode (.gain 0x40) = .ok (.gainDirect 0x40) ∧
  decode (.gain 0x9F) = .ok (.gainLinearDecrease 31) ∧
  decode (.gain 0xBF) = .ok (.gainExponentialDecrease 31) ∧
  decode (.gain 0xDF) = .ok (.gainLinearIncrease 31) ∧
  decode (.gain 0xFF) = .ok (.gainBentIncrease 31) ∧
  decode (.phase 1) = .ok .adsrDecay ∧
  decode (.config false false) = .ok .envDefault ∧
  decode (.ctrl 0xFFFFFFFE) = .ok .pull

/-! ## Reset -/

/-- 10_state.md R48: every value of the reset table; the block store cannot be observed. -/
def Obligations.ResetTable : Prop :=
  let s := State.reset
  s.drv.status = .idle ∧ s.drv.outValid = false ∧ s.drv.errCode = .none ∧ s.drv.errInfo = 0 ∧
  s.cfg.adsr = { present := false, value := 0 } ∧ s.cfg.gain = { present := false, value := 0 } ∧
  s.cfg.endovr = { present := false, count := 0 } ∧ s.cfg.loop = { present := false, index := 0 } ∧
  s.cfg.rate = 32000 ∧ s.cfg.offset = 0 ∧ s.cfg.srclen = 0 ∧ s.drv.outSample = 0 ∧
  s.load.nblk = 0 ∧ s.stream.curBlock = 0 ∧ s.stream.curNibble = 0 ∧ s.stream.prev = 0 ∧
  s.stream.prev2 = 0 ∧ s.drv.outCount = 0 ∧ s.env.kind = .gainDirect ∧ s.env.phase = 0 ∧
  s.env.level = 0 ∧ s.env.cnt = 0 ∧ s.env.attackRate = 0 ∧ s.env.decayRate = 0 ∧
  s.env.sustainLevel = 0 ∧ s.env.sustainRate = 0 ∧ s.env.gainRate = 0 ∧ s.load.ldPtr = 0 ∧ s.blkSel = 0 ∧
  ∀ sel : BitVec 31, regRead (s.withBlkSel sel) 0x54 = 0 ∧ regRead (s.withBlkSel sel) 0x58 = 0 ∧
    regRead (s.withBlkSel sel) 0x5C = 0

/-- 70_reset_and_hazards.md R260 to R262: a reset is taken in every state; it gives the reset values,
discards the held commands and leaves SRC. The parameters are fixed (00_scope.md R6); that the host's
coming accesses and its read port stay is the model's choice (logs 5 and 7). -/
def Obligations.ResetIsTakenInEveryState : Prop :=
  ∀ (s : State) (rest : List HostEntry), HostTurn s .reset rest →
    step s = .next { State.reset with params := s.params, src := s.src, host := rest, readData := s.readData }

/-! ## Host registers -/

/-- 10_state.md R23: the fields of STATUS and their codes. -/
def Obligations.StatusWordFields : Prop :=
  ∀ s : State,
    ((regRead s 0x04).extractLsb' 0 3).toNat = (match s.drv.status with
      | .idle => 0
      | .loading => 1
      | .play => 2
      | .done => 3
      | .error => 4) ∧
    (regRead s 0x04).getLsbD 3 = s.drv.outValid ∧
    ((regRead s 0x04).extractLsb' 4 4).toNat = (match s.drv.errCode with
      | .none => 0
      | .formatTruncated => 1
      | .configRate => 2
      | .configEndovr => 3
      | .configLoopRange => 4
      | .contractPull => 5
      | .contractCmd => 6
      | .overflow => 7
      | .capacity => 8
      | .formatFilter => 9) ∧
    ((regRead s 0x04).extractLsb' 8 2).toNat = (match s.env.kind with
      | .gainDirect => 0
      | .gainCustom => 1
      | .adsr => 2) ∧
    (regRead s 0x04).extractLsb' 10 2 = s.env.phase ∧
    (regRead s 0x04).extractLsb' 12 20 = 0

/-- 20_memory.md R66: a read of any register changes nothing; the host gets the register's word. That
the word stands in `readData` is the model's choice (log 7). -/
def Obligations.ReadsChangeNothing : Prop :=
  ∀ (s : State) (offset : Word) (rest : List HostEntry), offset.toNat % 4 = 0 →
    HostTurn s (.read 32 offset) rest → step s = .next (afterRead s rest (regRead s offset))

/-- 10_state.md R40: unlisted offsets read 0 and ignore writes, read-only registers ignore writes, and
an access of another width or alignment is refused. That the two have refusals of their own, and that an
access wrong in both is refused by its width, is the model's choice (log 16); so is the field that holds
the word read (log 7). -/
def Obligations.UndefinedAccesses : Prop :=
  ∀ (s : State) (width : Nat) (offset v : Word) (rest : List HostEntry),
    (width ≠ 32 → HostTurn s (.read width offset) rest ∨ HostTurn s (.write width offset v) rest →
      step s = .refused .hostAccessWidth) ∧
    (offset.toNat % 4 ≠ 0 → HostTurn s (.read 32 offset) rest ∨ HostTurn s (.write 32 offset v) rest →
      step s = .refused .hostAccessMisaligned) ∧
    (offset.toNat % 4 = 0 → (∀ r : HostReg, regOffset r ≠ offset) →
      (HostTurn s (.read 32 offset) rest → step s = .next (afterRead s rest 0)) ∧
      (HostTurn s (.write 32 offset v) rest → step s = .next (s.withHost rest))) ∧
    (∀ r : HostReg, ¬ IsCfg r → r ≠ .ctrl → r ≠ .blkSel → HostTurn s (.write 32 (regOffset r) v) rest →
      step s = .next (s.withHost rest))

/-- 10_state.md R41: a configuration write takes effect in IDLE and DONE, changes that register alone,
and reads back as the bits the register keeps (R24 to R30); in LOADING, PLAY and ERROR it is ignored. -/
def Obligations.ConfigWritesInIdleAndDoneOnly : Prop :=
  ∀ (s : State) (r : HostReg) (v : Word) (rest : List HostEntry), IsCfg r →
    HostTurn s (.write 32 (regOffset r) v) rest →
    ((s.drv.status = .idle ∨ s.drv.status = .done) →
      ∃ c : Cfg, step s = .next { s with cfg := c, host := rest } ∧
        regRead { s with cfg := c, host := rest } (regOffset r) = v &&& keptBits r ∧
        ∀ q : HostReg, q ≠ r → regRead { s with cfg := c, host := rest } (regOffset q) = regRead s (regOffset q)) ∧
    (¬ (s.drv.status = .idle ∨ s.drv.status = .done) → step s = .next (s.withHost rest))

/-- 10_state.md R39: a write to BLK_SEL is accepted in every state, bit 31 ignored; at or past NBLK the
window reads 0. -/
def Obligations.BlockSelectAndClosedWindow : Prop :=
  ∀ (s : State) (v : Word) (rest : List HostEntry),
    (HostTurn s (.write 32 0x50 v) rest →
      ∃ sel : BitVec 31, step s = .next { s with blkSel := sel, host := rest } ∧
        regRead { s with blkSel := sel, host := rest } 0x50 = v &&& 0x7FFFFFFF) ∧
    (s.load.nblk.toNat ≤ s.blkSel.toNat → regRead s 0x54 = 0 ∧ regRead s 0x58 = 0 ∧ regRead s 0x5C = 0)

/-- 10_state.md R39: after a block is parsed, the window shows "the header byte exactly as it stood in
the source", and data bytes 1 to 4 and 5 to 8. -/
def Obligations.WindowShowsTheParsedBytes : Prop :=
  ∀ (s : State) (h d1 d2 d3 d4 d5 d6 d7 d8 : Byte) (i : Instr),
    decode (.block [h, d1, d2, d3, d4, d5, d6, d7, d8]) = .ok i →
    s.params.wf → s.load.nblk.toNat < s.params.maxBlocks →
    ∃ t : State, exec i s = .next t ∧
      regRead (t.withBlkSel s.load.nblk) 0x54 = h.setWidth 32 ∧
      regRead (t.withBlkSel s.load.nblk) 0x58 = d1 ++ d2 ++ d3 ++ d4 ∧
      regRead (t.withBlkSel s.load.nblk) 0x5C = d5 ++ d6 ++ d7 ++ d8

/-! ## The Block Decoder -/

/-- 40_block_decoder.md R111, R112: the count comes first; an exhausted source completes with an
override and is FORMAT_TRUNCATED at `LD_PTR` without. -/
def Obligations.LoadStepStopsBeforeParsing : Prop :=
  ∀ s t : State, LoadTurn s t →
    (t.cfg.endovr.present = true ∧ t.load.nblk = t.cfg.endovr.count → step s = .next (completedState t)) ∧
    (¬ (t.cfg.endovr.present = true ∧ t.load.nblk = t.cfg.endovr.count) →
      t.cfg.srclen.toNat < t.load.ldPtr.toNat + 9 →
      step s = .next (if t.cfg.endovr.present = true then completedState t
        else errorState .formatTruncated (t.load.ldPtr.setWidth 32) t))

/-- 40_block_decoder.md R111, R114 to R116: otherwise the block at `LD_PTR` is parsed: exactly its 9
bytes, the header's fields, the nibbles high then low; it is kept, and an `end` block completes. -/
def Obligations.LoadStepParsesTheBlock : Prop :=
  ∀ s t : State, LoadTurn s t →
    ¬ (t.cfg.endovr.present = true ∧ t.load.nblk = t.cfg.endovr.count) →
    t.load.ldPtr.toNat + 9 ≤ t.cfg.srclen.toNat →
    t.load.nblk.toNat ≠ t.params.maxBlocks →
    ∃ r : BlockRec, let h := t.src.read t.load.ldPtr.toNat
      r.ends = h.getLsbD 0 ∧ r.loop = h.getLsbD 1 ∧ r.filter = h.extractLsb' 2 2 ∧ r.range = h.extractLsb' 4 4 ∧
      (∀ k : Fin 8, r.nib[2 * k.val] = (t.src.read (t.load.ldPtr.toNat + 1 + k)).extractLsb' 4 4 ∧
        r.nib[2 * k.val + 1] = (t.src.read (t.load.ldPtr.toNat + 1 + k)).extractLsb' 0 4) ∧
      ∃ blk : List BlockRec, readBlk blk t.load.nblk.toNat = r ∧
        (∀ j : Nat, j ≠ t.load.nblk.toNat → readBlk blk j = readBlk t.load.blk j) ∧
        let kept : State := { t with load := { ldPtr := t.load.ldPtr + 9, nblk := t.load.nblk + 1, blk := blk } }
        step s = .next (if r.ends = true then completedState kept else kept)

/-- 40_block_decoder.md R113: a block past MAX_BLOCKS raises CAPACITY with `ERR_INFO = LD_PTR`, and no
record of it is kept. -/
def Obligations.FullStoreRaisesCapacity : Prop :=
  ∀ s t : State, LoadTurn s t →
    ¬ (t.cfg.endovr.present = true ∧ t.load.nblk = t.cfg.endovr.count) →
    t.load.ldPtr.toNat + 9 ≤ t.cfg.srclen.toNat →
    t.load.nblk.toNat = t.params.maxBlocks →
    step s = .next (errorState .capacity (t.load.ldPtr.setWidth 32) t)

/-- PARSE_BLOCK completes whenever the store is not full (R111, R114, R115), and changes nothing but
the block store, `NBLK` and `LD_PTR`, and through R116 the driver. -/
def Obligations.ParseBlockCompletes : Prop :=
  ∀ (s : State) (range : BitVec 4) (filter : BitVec 2) (loop ends : Bool) (nibbles : List (BitVec 4)),
    nibbles.length = 16 → s.load.nblk.toNat ≠ s.params.maxBlocks →
    ∃ blk : List BlockRec,
      let kept : State := { s with load := { ldPtr := s.load.ldPtr + 9, nblk := s.load.nblk + 1, blk := blk } }
      exec (.parseBlock range filter loop ends nibbles) s =
        .next (if ends = true then completedState kept else kept) ∧
      (readBlk blk s.load.nblk.toNat).ends = ends ∧ (readBlk blk s.load.nblk.toNat).loop = loop ∧
      (readBlk blk s.load.nblk.toNat).filter = filter ∧ (readBlk blk s.load.nblk.toNat).range = range ∧
      (readBlk blk s.load.nblk.toNat).nib.toList = nibbles ∧
      ∀ j : Nat, j ≠ s.load.nblk.toNat → readBlk blk j = readBlk s.load.blk j

/-- 60_exceptions.md R243: from any LOADING state of the invariant, the LOAD steps reach PLAY or ERROR,
after at most `MAX_BLOCKS + 1` of them. -/
def Obligations.LoadReachesPlayOrError : Prop :=
  ∀ s : State, s.Inv → s.drv.status = .loading → s.host = [] →
    ∃ (k : Nat) (t : State), k ≤ s.params.maxBlocks + 1 ∧ core.run k s = .next t ∧
      (t.drv.status = .play ∨ t.drv.status = .error)

/-! ## The Predictive Sample Stream -/

/-- 41_sample_stream.md R132: the raw value of every nibble and range, and its bounds. -/
def Obligations.RawSampleBounds : Prop :=
  (∀ (c range : BitVec 4), -131072 ≤ rawSample (nibbleValue c) range ∧ rawSample (nibbleValue c) range ≤ 114688) ∧
  rawSample (nibbleValue 8) 15 = -131072 ∧ rawSample (nibbleValue 7) 15 = 114688 ∧
  rawSample (nibbleValue 15) 0 = -1 ∧ rawSample (nibbleValue 8) 12 = -16384

/-- 41_sample_stream.md R131 to R133, R139, R140: FILTER0 gives the raw value, shifts the history all the
same, never overflows, and reads no history. That a filter row alone is the whole DecodeNext at its
header's range is the model's reading (log 12). -/
def Obligations.FilterZeroResult : Prop :=
  ∀ (s : State) (range : BitVec 4) (l e : Bool), s.params.wf →
    s.stream.curBlock.toNat < s.load.nblk.toNat →
    exec (.filter0 range l e) s = .next { s with stream := streamAfter s.stream (rawAtCursor s range) }

/-- 41_sample_stream.md R134 to R137, R139, R140: each of the filters with history truncates its whole
exact sum once, toward zero; the history and the cursor move; nothing else changes. That a filter row
alone is the whole DecodeNext at its header's range is the model's reading (log 12). -/
def Obligations.FilterWithHistoryResults : Prop :=
  ∀ (s : State) (range : BitVec 4) (l e : Bool),
    s.stream.curBlock.toNat < s.load.nblk.toNat →
    let raw := rawAtCursor s range
    let v1 := Int.tdiv (64 * raw + 60 * s.stream.prev) 64
    let v2 := Int.tdiv (64 * raw + 122 * s.stream.prev - 60 * s.stream.prev2) 64
    let v3 := Int.tdiv (64 * raw + 115 * s.stream.prev - 52 * s.stream.prev2) 64
    (Fits s.params.histW v1 → exec (.filter1 range l e) s = .next { s with stream := streamAfter s.stream v1 }) ∧
    (Fits s.params.histW v2 → exec (.filter2 range l e) s = .next { s with stream := streamAfter s.stream v2 }) ∧
    (Fits s.params.histW v3 → exec (.filter3 range l e) s = .next { s with stream := streamAfter s.stream v3 })

/-- 41_sample_stream.md R138, 60_exceptions.md R231, R234: a value outside `HIST_W` signed bits raises
OVERFLOW with the cursor as its information. A filter row and the PULL that decodes the sample change no
history, cursor, envelope or output sample, and emit nothing. That a filter row alone is the whole
DecodeNext at its header's range is the model's reading (log 12). -/
def Obligations.FilterOverflowRaises : Prop :=
  ∀ (s : State) (range : BitVec 4) (l e : Bool),
    s.stream.curBlock.toNat < s.load.nblk.toNat →
    let raw := rawAtCursor s range
    let v1 := Int.tdiv (64 * raw + 60 * s.stream.prev) 64
    let v2 := Int.tdiv (64 * raw + 122 * s.stream.prev - 60 * s.stream.prev2) 64
    let v3 := Int.tdiv (64 * raw + 115 * s.stream.prev - 52 * s.stream.prev2) 64
    let v := filterValue (currentBlock s).filter (rawAtCursor s (currentBlock s).range) s.stream.prev s.stream.prev2
    (¬ Fits s.params.histW v1 → exec (.filter1 range l e) s = .next (errorState .overflow (overflowInfo s) s)) ∧
    (¬ Fits s.params.histW v2 → exec (.filter2 range l e) s = .next (errorState .overflow (overflowInfo s) s)) ∧
    (¬ Fits s.params.histW v3 → exec (.filter3 range l e) s = .next (errorState .overflow (overflowInfo s) s)) ∧
    (s.drv.status = .play → ¬ Fits s.params.histW v →
      exec .pull s = .next (errorState .overflow (overflowInfo s) s))

/-- 41_sample_stream.md R148: DecodeNext on an exhausted stream faults and never returns a value. That a
filter row alone is the whole DecodeNext is the model's reading (log 12). -/
def Obligations.ExhaustedStreamFaults : Prop :=
  ∀ (s : State) (range : BitVec 4) (l e : Bool), s.load.nblk.toNat ≤ s.stream.curBlock.toNat →
    exec (.filter0 range l e) s = .fault .streamExhausted ∧ exec (.filter1 range l e) s = .fault .streamExhausted ∧
    exec (.filter2 range l e) s = .fault .streamExhausted ∧ exec (.filter3 range l e) s = .fault .streamExhausted

/-- 41_sample_stream.md R137: an accumulator of `ACC_W = HIST_W + 8` bits holds every filter sum. -/
def Obligations.AccumulatorHoldsTheSum : Prop :=
  ∀ (p : Params) (c range : BitVec 4) (a b : Int), p.wf → Fits p.histW a → Fits p.histW b →
    Fits p.accW (filterSum1 (rawSample (nibbleValue c) range) a) ∧
    Fits p.accW (filterSum2 (rawSample (nibbleValue c) range) a b) ∧
    Fits p.accW (filterSum3 (rawSample (nibbleValue c) range) a b)

/-- 41_sample_stream.md R147: looping from the end of `n` retained blocks to block `i` sounds as the
same blocks followed by blocks `i` to `n − 1` once more, with no loop: after every PULL of that pass
the samples, the history, the envelope and the driver's state agree. -/
def Obligations.LoopSeamContinuity : Prop :=
  ∀ (s : State) (k : Nat),
    let n := s.load.nblk.toNat
    let i := s.cfg.loop.index.toNat
    let unrolled : State :=
      { s with
        load := { s.load with
          nblk := BitVec.ofNat 31 (n + (n - i))
          blk := s.load.blk.take n ++ (s.load.blk.take n).drop i }
        cfg := { s.cfg with loop := { s.cfg.loop with present := false } } }
    s.Inv → s.drv.status = .play → s.cfg.loop.present = true → s.env.level ≠ 0 →
    s.stream.curBlock = s.load.nblk → n + (n - i) < 2 ^ 31 → k ≤ 16 * (n - i) →
    ∃ t u : State, execTimes .pull k s = .next t ∧ execTimes .pull k unrolled = .next u ∧ SameSound t u

/-! ## The Envelope Engine -/

/-- 42_envelope.md R161: with period 0 the counter never ticks and stays; with period `p` the counter is
in [0, p − 1] after every call, and from 0 it ticks on the `p`-th, `2p`-th, `3p`-th, … call. -/
def Obligations.TicksEveryPeriod : Prop :=
  ∀ (table : Vector Nat 32) (idx : BitVec 5),
    (ratePeriod table idx = 0 → ∀ c, tickDue table idx c = false ∧ tickCount table idx c = c) ∧
    (1 ≤ ratePeriod table idx → ratePeriod table idx ≤ 2048 →
      (∀ c, (tickCount table idx c).toNat < ratePeriod table idx) ∧
      ∀ k : Nat, ((tickCount table idx)^[k] 0).toNat = k % ratePeriod table idx ∧
        (tickDue table idx ((tickCount table idx)^[k] 0) = true ↔ ratePeriod table idx ∣ k + 1))

/-- 42_envelope.md R164: ConstructADSR; bit 15 changes nothing, `ENV_GRATE` keeps its value. -/
def Obligations.AdsrConstructs : Prop :=
  ∀ (s : State) (enabled : Bool) (dr : BitVec 3) (ar : BitVec 4) (sl : BitVec 3) (sr : BitVec 5),
    exec (.adsr enabled dr ar sl sr) s = .next { s with env :=
      { kind := .adsr, phase := 0, level := 0, cnt := 0, attackRate := ar, decayRate := dr,
        sustainLevel := sl, sustainRate := sr, gainRate := s.env.gainRate } }

/-- 42_envelope.md R165, R167: ConstructDirect, `level = zext_7(G[6:0]) × 16` (30_encoding.md R87), and
ConstructDefault, Gain-Direct at 0x800. -/
def Obligations.DirectEnvelopesConstruct : Prop :=
  ∀ s : State,
    (∀ g : BitVec 7, ∃ level : BitVec 12, level.toNat = g.toNat * 16 ∧
      exec (.gainDirect g) s = .next { s with env :=
        { s.env with kind := .gainDirect, phase := 0, level := level, cnt := 0 } }) ∧
    exec .envDefault s = .next { s with env :=
      { s.env with kind := .gainDirect, phase := 0, level := 0x800, cnt := 0 } }

/-- 42_envelope.md R170: the tick first, then the transition test on the new level, tick or not. The
increment is 0x400 for `attackRate = 15` (index 31) and 0x20 otherwise. -/
def Obligations.AttackStepResult : Prop :=
  ∀ s : State,
    let p := ratePeriod s.params.rateTable (BitVec.ofNat 5 (s.env.attackRate.toNat * 2 + 1))
    let inc : Int := if s.env.attackRate = 15 then 0x400 else 0x20
    ∃ level : BitVec 12,
      (level.toNat : Int) = (if Ticks p s.env.cnt then clamped (s.env.level.toNat + inc) else s.env.level.toNat) ∧
      exec .adsrAttack s = .next { s with env :=
        { s.env with
          level := level
          phase := if 0x7e0 ≤ level.toNat then 1 else s.env.phase
          cnt := if 0x7e0 ≤ level.toNat then 0 else countAfter p s.env.cnt } }

/-- 42_envelope.md R171: the decay step on a tick, and SUSTAIN when the new level is at most
`(sustainLevel + 1) × 0x100`. -/
def Obligations.DecayStepResult : Prop :=
  ∀ s : State,
    let p := ratePeriod s.params.rateTable (BitVec.ofNat 5 (s.env.decayRate.toNat * 2 + 16))
    let l : Int := s.env.level.toNat
    ∃ level : BitVec 12,
      (level.toNat : Int) = (if Ticks p s.env.cnt then clamped (l - 1 - (l - 1) / 256) else l) ∧
      exec .adsrDecay s = .next { s with env :=
        { s.env with
          level := level
          phase := if level.toNat ≤ (s.env.sustainLevel.toNat + 1) * 0x100 then 2 else s.env.phase
          cnt := if level.toNat ≤ (s.env.sustainLevel.toNat + 1) * 0x100 then 0 else countAfter p s.env.cnt } }

/-- 42_envelope.md R172: the decay step on a tick, and RELEASE when the new level is 0. -/
def Obligations.SustainStepResult : Prop :=
  ∀ s : State,
    let p := ratePeriod s.params.rateTable s.env.sustainRate
    let l : Int := s.env.level.toNat
    ∃ level : BitVec 12,
      (level.toNat : Int) = (if Ticks p s.env.cnt then clamped (l - 1 - (l - 1) / 256) else l) ∧
      exec .adsrSustain s = .next { s with env :=
        { s.env with
          level := level
          phase := if level = 0 then 3 else s.env.phase
          cnt := if level = 0 then 0 else countAfter p s.env.cnt } }

/-- 42_envelope.md R173: 8 less on every Advance, never below 0; the counter is not touched. -/
def Obligations.ReleaseStepResult : Prop :=
  ∀ s : State, ∃ level : BitVec 12, (level.toNat : Int) = clamped ((s.env.level.toNat : Int) - 8) ∧
    exec .adsrRelease s = .next { s with env := { s.env with level := level } }

/-- 42_envelope.md R176 to R179: each Gain-Custom mode's level on a tick; without a tick the level
stays; nothing but the level and the counter changes. That a Gain-Custom row means its GainStep at the
encoded rate, which START puts in `ENV_GRATE`, is the model's reading (log 13). -/
def Obligations.GainStepResults : Prop :=
  ∀ (s : State) (rate : BitVec 5),
    let p := ratePeriod s.params.rateTable rate
    let l : Int := s.env.level.toNat
    let after (level : BitVec 12) : State :=
      { s with env := { s.env with level := level, cnt := countAfter p s.env.cnt } }
    ∃ a b c d : BitVec 12,
      (a.toNat : Int) = (if Ticks p s.env.cnt then clamped (l - 32) else l) ∧
      (b.toNat : Int) = (if Ticks p s.env.cnt then clamped (l - ((l - 1) / 256 + 1)) else l) ∧
      (c.toNat : Int) = (if Ticks p s.env.cnt then clamped (l + 32) else l) ∧
      (d.toNat : Int) = (if Ticks p s.env.cnt then clamped (l + if l < 0x600 then 32 else 8) else l) ∧
      exec (.gainLinearDecrease rate) s = .next (after a) ∧
      exec (.gainExponentialDecrease rate) s = .next (after b) ∧
      exec (.gainLinearIncrease rate) s = .next (after c) ∧
      exec (.gainBentIncrease rate) s = .next (after d)

/-- 42_envelope.md R174: the decay step, its value at 0, that it lowers every level from 1 to 0x7ff, that
the clamp never changes its value, and the rule's sample values. -/
def Obligations.DecayStepLowers : Prop :=
  (∀ l : Int, decayed l = l - 1 - (l - 1) / 256) ∧ decayed 0 = 0 ∧ clamp (decayed 0) = decayed 0 ∧
  (∀ l : Int, 1 ≤ l → l ≤ 0x7ff → 0 ≤ decayed l ∧ decayed l < l ∧ clamp (decayed l) = decayed l) ∧
  decayed 1 = 0 ∧ decayed 2 = 1 ∧ decayed 0x100 = 0xff ∧ decayed 0x101 = 0xff ∧ decayed 0x201 = 0x1fe ∧
  decayed 0x7e0 = 0x7d8 ∧ decayed 0x7ff = 0x7f7

/-- 42_envelope.md R170's corner case: with an index other than 31, ATTACK from level 0 reaches exactly
0x7e0 after `63 × RATE_TABLE[idx]` Advances, enters DECAY on that Advance, and is still in ATTACK
before it. -/
def Obligations.AttackTakesSixtyThreeTicks : Prop :=
  ∀ (s : State) (n : Nat),
    let p := ratePeriod s.params.rateTable (BitVec.ofNat 5 (s.env.attackRate.toNat * 2 + 1))
    s.params.wf → s.env.attackRate ≠ 15 → s.env.phase = 0 → s.env.level = 0 → s.env.cnt = 0 → n ≤ 63 * p →
    ∃ t : State, execTimes .adsrAttack n s = .next t ∧ t.env.level.toNat = 32 * (n / p) ∧
      t.env.phase = (if n = 63 * p then 1 else 0)

/-- 42_envelope.md R181: the envelope after a PULL is what it was or one Advance of it; whether it
advances is whether a sample is emitted, and the Advance reads nothing else. -/
def Obligations.EnvelopeAdvancesOncePerSample : Prop :=
  ∀ s t : State, exec .pull s = .next t →
    (t.drv.outCount = s.drv.outCount + 1 ∧ t.env = advanceEnv s.params.rateTable s.env) ∨
    (t.drv.outCount = s.drv.outCount ∧ t.env = s.env)

/-- 42_envelope.md R180: `ENV_KIND` changes only at START, which ends in LOADING, and at a reset,
which ends in IDLE. -/
def Obligations.EnvelopeKindChangesAtStartOnly : Prop :=
  ∀ s t : State, s.Inv → step s = .next t → t.env.kind ≠ s.env.kind →
    (t.drv.status = .loading ∧ t.env = constructed s.cfg s.env) ∨
    ∃ rest : List HostEntry, HostTurn s .reset rest

/-! ## The Playback Driver -/

/-- 43_playback_driver.md R200, R210: while LOADING every command is held, after the commands already
held, and has no other effect; in ERROR every command is ignored. That several commands are held in
their order is the model's choice (log 6). -/
def Obligations.CommandsInLoadingAndError : Prop :=
  ∀ s : State,
    (s.drv.status = .loading →
      exec .nop s = .next { s with held := s.held ++ [0] } ∧
      exec .start s = .next { s with held := s.held ++ [1] } ∧
      exec .pull s = .next { s with held := s.held ++ [2] } ∧
      exec .cmdReserved s = .next { s with held := s.held ++ [3] }) ∧
    (s.drv.status = .error →
      exec .nop s = .next s ∧ exec .start s = .next s ∧ exec .pull s = .next s ∧ exec .cmdReserved s = .next s)

/-- 43_playback_driver.md R201: NOP changes no state, in every state in which it is not held. -/
def Obligations.NopChangesNothing : Prop :=
  ∀ s : State, s.drv.status ≠ .loading → exec .nop s = .next s

/-- 43_playback_driver.md R209: CMD 3 raises CONTRACT_CMD with `ERR_INFO = 3`. -/
def Obligations.ReservedCommandRaises : Prop :=
  ∀ s : State, s.drv.status = .idle ∨ s.drv.status = .play ∨ s.drv.status = .done →
    exec .cmdReserved s = .next (errorState .contractCmd 3 s)

/-- 60_exceptions.md R242 and R233: START's checks, the rate first; nothing else of START happens. -/
def Obligations.StartChecksConfiguration : Prop :=
  ∀ s : State, s.drv.status = .idle ∨ s.drv.status = .play ∨ s.drv.status = .done →
    (s.cfg.rate = 0 → exec .start s = .next (errorState .configRate 0 s)) ∧
    (s.cfg.rate ≠ 0 → s.cfg.endovr.present = true → s.cfg.endovr.count = 0 →
      exec .start s = .next (errorState .configEndovr 0 s))

/-- 43_playback_driver.md R202, 40_block_decoder.md R110, 41_sample_stream.md R145: an accepted START,
whole. -/
def Obligations.StartBeginsASession : Prop :=
  ∀ s : State, s.drv.status = .idle ∨ s.drv.status = .play ∨ s.drv.status = .done → s.cfg.rate ≠ 0 →
    ¬ (s.cfg.endovr.present = true ∧ s.cfg.endovr.count = 0) →
    exec .start s = .next { s with
      env := constructed s.cfg s.env
      stream := { curBlock := 0, curNibble := 0, prev := 0, prev2 := 0 }
      drv := { s.drv with status := .loading, outValid := false, outCount := 0 }
      load := { s.load with ldPtr := s.cfg.offset.setWidth 33, nblk := 0 } }

/-- 43_playback_driver.md R203 to R206, R211: a PULL with a sample left decodes it, scales it by the
level before the Advance, emits it at full width and advances the envelope. -/
def Obligations.PullEmitsTheScaledSample : Prop :=
  ∀ s : State, s.drv.status = .play → s.stream.curBlock.toNat < s.load.nblk.toNat →
    let v := filterValue (currentBlock s).filter (rawAtCursor s (currentBlock s).range) s.stream.prev s.stream.prev2
    Fits s.params.histW v →
    exec .pull s = .next { s with
      stream := streamAfter s.stream v
      drv := { s.drv with
        outSample := (match s.params.scaleRound with
          | .floor => (v * s.env.level.toNat) / 2048
          | .trunc => Int.tdiv (v * s.env.level.toNat) 2048)
        outValid := true
        outCount := s.drv.outCount + 1 }
      env := advanceEnv s.params.rateTable s.env }

/-- 43_playback_driver.md R203, R207, 41_sample_stream.md R146: at the end of the stream a looping
configuration with a level other than 0 continues at the loop block with the history kept: the PULL
is the PULL of the state with the cursor there. -/
def Obligations.PullLoopsKeepingHistory : Prop :=
  ∀ s : State, s.drv.status = .play → s.load.nblk.toNat ≤ s.stream.curBlock.toNat →
    s.cfg.loop.present = true → s.env.level ≠ 0 → s.cfg.loop.index.toNat < s.load.nblk.toNat →
    exec .pull s = exec .pull { s with stream := { s.stream with curBlock := s.cfg.loop.index, curNibble := 0 } }

/-- 43_playback_driver.md R203, R207: at the end of the stream without a loop, or at level 0, the
session ends and nothing is emitted. -/
def Obligations.PullEndsTheSession : Prop :=
  ∀ s : State, s.drv.status = .play → s.load.nblk.toNat ≤ s.stream.curBlock.toNat →
    ¬ (s.cfg.loop.present = true ∧ s.env.level ≠ 0) →
    exec .pull s = .next { s with drv := { s.drv with status := .done, outValid := false } }

/-- 43_playback_driver.md R200, 60_exceptions.md R230, R232: a PULL in IDLE or DONE is a contract
violation whose information word is the STATE value. -/
def Obligations.PullOutsideASessionRaises : Prop :=
  ∀ s : State,
    (s.drv.status = .idle → exec .pull s = .next (errorState .contractPull 0 s)) ∧
    (s.drv.status = .done → exec .pull s = .next (errorState .contractPull 3 s))

/-- 43_playback_driver.md R205: the scaled sample lies between the sample and 0, level 0x800 is the
identity, and level 0 gives 0. -/
def Obligations.ScaledSampleBetweenZeroAndSample : Prop :=
  ∀ (r : ScaleRound) (v : Int) (level : BitVec 12), level.toNat ≤ 0x800 →
    (0 ≤ v → 0 ≤ scaleSample r v level ∧ scaleSample r v level ≤ v) ∧
    (v < 0 → v ≤ scaleSample r v level ∧ scaleSample r v level ≤ 0) ∧
    (level = 0x800 → scaleSample r v level = v) ∧ (level = 0 → scaleSample r v level = 0)

/-- 43_playback_driver.md R208: a non-looping session emits exactly the samples that are left, whatever
the envelope does, and the PULL after them sets DONE and emits nothing; no PULL on the way raises
anything but OVERFLOW. -/
def Obligations.NonLoopingSessionLength : Prop :=
  ∀ s : State, s.Inv → s.drv.status = .play → s.cfg.loop.present = false →
    ∃ t : State, execTimes .pull (samplesLeft s) s = .next t ∧
      ((t.drv.status = .error ∧ t.drv.errCode = .overflow) ∨
       (t.drv.status = .play ∧ t.drv.outCount = s.drv.outCount + BitVec.ofNat 64 (samplesLeft s) ∧
        exec .pull t = .next { t with drv := { t.drv with status := .done, outValid := false } }))

/-! ## Errors and whole-machine rules -/

/-- 60_exceptions.md R235: ERROR is sticky. A step from ERROR that is not a reset leaves the driver, the
configuration, the block store, the cursor, the history, the envelope and the parameters as they are.
BLK_SEL is not among them: writes to it still work in ERROR. -/
def Obligations.ErrorIsSticky : Prop :=
  ∀ s t : State, s.drv.status = .error → step s = .next t → (∀ rest, ¬ HostTurn s .reset rest) →
    t.drv = s.drv ∧ t.cfg = s.cfg ∧ t.load = s.load ∧ t.stream = s.stream ∧ t.env = s.env ∧ t.params = s.params

/-- 20_memory.md R60, R72 and 00_scope.md R6: no step changes a parameter, and SRC changes only by the
host's own write of a byte outside LOADING, at that address only. Outside LOADING that write is taken and
changes nothing else (70_reset_and_hazards.md R263, R267): at every 32-bit address, those at or above
CFG_SRCLEN too, is the model's reading (log 17). While LOADING the model refuses it, at every address (log 15). -/
def Obligations.OnlyTheHostWritesSource : Prop :=
  ∀ s : State, Memory.wf s.src = true →
    (∀ t : State, step s = .next t →
      t.params = s.params ∧
      (t.src = s.src ∨
       ∃ (a : BitVec srcAddrW) (b : Byte) (rest : List HostEntry), HostTurn s (.srcWrite a b) rest ∧
         s.drv.status ≠ .loading ∧ t.src.read a.toNat = b ∧ ∀ x : Nat, x ≠ a.toNat → t.src.read x = s.src.read x)) ∧
    (∀ (a : BitVec srcAddrW) (b : Byte) (rest : List HostEntry), HostTurn s (.srcWrite a b) rest →
      (s.drv.status ≠ .loading →
        ∃ m : Memory, step s = .next { s with src := m, host := rest } ∧ Memory.wf m = true ∧
          m.read a.toNat = b ∧ ∀ x : Nat, x ≠ a.toNat → m.read x = s.src.read x) ∧
      (s.drv.status = .loading → step s = .refused .sourceWriteWhileLoading))

/-- 20_memory.md R61, 40_block_decoder.md R114: no step reads outside SRC and every fetched block
decodes: the one fault left is an exhausted stream. -/
def Obligations.BlockFetchNeverFaults : Prop :=
  ∀ (s : State) (f : Fault), step s = .fault f → f = .streamExhausted

/-- 41_sample_stream.md R148, 43_playback_driver.md R203, 60_exceptions.md R243: from a state of the
invariant no step faults. -/
def Obligations.NoFaultFromInvariant : Prop :=
  ∀ s : State, s.Inv → SafeStep s

/-- The invariant holds after reset: 10_state.md R48, with the parameters in the ranges of 00_scope.md R6
and 42_envelope.md R160. The parameters at reset are the defaults of log 1 (whose rate table is general
knowledge) and the free `MAX_BLOCKS` of log 2; that SRC is empty, and so canonical, is logs 4 and 24. -/
def Obligations.ResetMeetsInvariant : Prop := State.reset.Inv

/-- Every step keeps the invariant: the level range (42_envelope.md R180), the cursor (10_state.md R35),
the history's width (41_sample_stream.md R138), the block store's capacity (40_block_decoder.md R113),
the load pointer (30_encoding.md R93), the error code (60_exceptions.md R231) and the canonical memory. -/
def Obligations.StepKeepsInvariant : Prop :=
  ∀ s t : State, s.Inv → step s = .next t → t.Inv

/-! ## A step runs the decoded instruction -/

/-- 43_playback_driver.md R200, R210, 20_memory.md R66: a write to CTRL runs the command it names,
whatever its bits 31:2 (10_state.md R22), and outside LOADING the oldest held command runs. That it runs
before any later access of the host is the model's choice (log 6). -/
def Obligations.StepRunsTheCommand : Prop :=
  (∀ (s : State) (w : Word) (i : Instr) (rest : List HostEntry), HostTurn s (.write 32 0x00 w) rest →
    decode (.ctrl w) = .ok i → step s = exec i (s.withHost rest)) ∧
  ∀ (s : State) (c : BitVec 2) (cs : List (BitVec 2)) (i : Instr), s.drv.status ≠ .loading → s.held = c :: cs →
    decode (.ctrl (c.setWidth 32)) = .ok i → step s = exec i (s.withHeld cs)

/-- 40_block_decoder.md R111: the LOAD step runs the block that the 9 bytes at `LD_PTR` decode to. That it
does so with a full store too is the model's choice: R111's capacity check stands in the meaning of
PARSE_BLOCK (log 18). -/
def Obligations.StepRunsTheFetchedBlock : Prop :=
  ∀ (s t : State) (i : Instr), LoadTurn s t →
    ¬ (t.cfg.endovr.present = true ∧ t.load.nblk = t.cfg.endovr.count) →
    t.load.ldPtr.toNat + 9 ≤ t.cfg.srclen.toNat →
    decode (.block ((List.range 9).map fun k => t.src.read (t.load.ldPtr.toNat + k))) = .ok i →
    step s = exec i t

/-- 41_sample_stream.md R131, 42_envelope.md R168: inside a PULL with a sample left, the header of the
block at the cursor is the instruction that decodes the sample, and the envelope's phase or gain byte
is the instruction that advances it. That a header row run alone is the whole DecodeNext, and a phase row
its Advance, is the model's reading (log 12), and so is that a Gain-Custom row is its GainStep (log 13). -/
def Obligations.PullRunsFilterAndEnvelopeOperations : Prop :=
  ∀ (s : State) (i : Instr) (t : State), s.drv.status = .play → s.stream.curBlock.toNat < s.load.nblk.toNat →
    decode (.header (recordHeader (currentBlock s))) = .ok i → exec i s = .next t → t.drv.status = .play →
    let emitted := emitSample (scaleSample s.params.scaleRound t.stream.prev s.env.level) t
    (envelopeInput s.env = none → exec .pull s = .next emitted) ∧
    (∀ (inp : Input) (j : Instr), envelopeInput s.env = some inp → decode inp = .ok j →
      exec .pull s = exec j emitted)

/-- 42_envelope.md R163: at START the configuration selects an instruction, and the envelope that START
leaves is the one it constructs. A Gain-Custom byte's instruction is its mode's step, not its construction
(the model's reading, log 13), and START then constructs the whole of R166. -/
def Obligations.StartRunsTheSelectedConstruction : Prop :=
  ∀ (s t : State) (i : Instr), s.drv.status = .idle ∨ s.drv.status = .play ∨ s.drv.status = .done →
    exec .start s = .next t → t.drv.status = .loading → decode (configInput s.cfg) = .ok i →
    (∃ u : State, exec i s = .next u ∧ t.env = u.env) ∨
    (s.cfg.adsr.present = false ∧ s.cfg.gain.present = true ∧ s.cfg.gain.value.getLsbD 7 = true ∧
      envelopeInput t.env = some (configInput s.cfg) ∧
      t.env = { s.env with
        kind := .gainCustom
        phase := s.cfg.gain.value.extractLsb' 5 2
        gainRate := s.cfg.gain.value.extractLsb' 0 5
        level := if (s.cfg.gain.value.extractLsb' 5 2).toNat < 2 then 0x7ff else 0
        cnt := 0 })

/-- 60_exceptions.md R245: with no command held and no access to come, the core takes no step in IDLE,
DONE and ERROR, and all its state is kept; in PLAY it has no step either, since its own steps are the LOAD
step and the one that a PULL asks for (00_scope.md R11, 60_exceptions.md R237). That the model's step then
answers the same state is its choice (log 9). -/
def Obligations.WaitingCoreKeepsItsState : Prop :=
  ∀ s : State, s.drv.status ≠ .loading → s.held = [] → s.host = [] → step s = .next s

/-- 10_state.md R22 and R24 to R39: the word that each register but STATUS and the block window reads as.
A signed register that fits 32 bits reads as its value; one that does not is a free value (log 8). -/
def Obligations.RegistersReadTheirState : Prop :=
  ∀ s : State,
    regRead s 0x00 = 0 ∧
    regRead s 0x08 = BitVec.ofBool s.cfg.adsr.present ++ (0 : BitVec 15) ++ s.cfg.adsr.value ∧
    regRead s 0x0C = BitVec.ofBool s.cfg.gain.present ++ (0 : BitVec 23) ++ s.cfg.gain.value ∧
    regRead s 0x10 = BitVec.ofBool s.cfg.endovr.present ++ s.cfg.endovr.count ∧
    regRead s 0x14 = BitVec.ofBool s.cfg.loop.present ++ s.cfg.loop.index ∧
    regRead s 0x18 = s.cfg.rate ∧ regRead s 0x1C = s.cfg.offset ∧ regRead s 0x20 = s.cfg.srclen ∧
    (Fits 32 s.drv.outSample → (regRead s 0x24).toInt = s.drv.outSample) ∧
    (regRead s 0x28).toNat = s.load.nblk.toNat ∧
    (regRead s 0x2C).toNat = s.env.level.toNat ∧
    regRead s 0x30 = s.drv.errInfo ∧
    (regRead s 0x34).toNat = s.stream.curBlock.toNat ∧
    (regRead s 0x38).toNat = s.stream.curNibble.toNat ∧
    (Fits 32 s.stream.prev → (regRead s 0x3C).toInt = s.stream.prev) ∧
    (Fits 32 s.stream.prev2 → (regRead s 0x40).toInt = s.stream.prev2) ∧
    (regRead s 0x44).toNat = s.drv.outCount.toNat % 2 ^ 32 ∧
    (regRead s 0x48).toNat = s.drv.outCount.toNat / 2 ^ 32 ∧
    (regRead s 0x4C).toNat = s.env.cnt.toNat ∧
    (regRead s 0x50).toNat = s.blkSel.toNat
end

