-- ==== Sys2Proof/Laws/State.lean ====
section
/-! SUPPORT. What each named update of State leaves in each field. -/

namespace Sys2Proof.Machine

variable (s : State)

section
variable (x : Cfg)
@[simp] theorem State.withCfg_params : (s.withCfg x).params = s.params := rfl
@[simp] theorem State.withCfg_cfg : (s.withCfg x).cfg = x := rfl
@[simp] theorem State.withCfg_drv : (s.withCfg x).drv = s.drv := rfl
@[simp] theorem State.withCfg_load : (s.withCfg x).load = s.load := rfl
@[simp] theorem State.withCfg_stream : (s.withCfg x).stream = s.stream := rfl
@[simp] theorem State.withCfg_env : (s.withCfg x).env = s.env := rfl
@[simp] theorem State.withCfg_blkSel : (s.withCfg x).blkSel = s.blkSel := rfl
@[simp] theorem State.withCfg_src : (s.withCfg x).src = s.src := rfl
@[simp] theorem State.withCfg_held : (s.withCfg x).held = s.held := rfl
@[simp] theorem State.withCfg_host : (s.withCfg x).host = s.host := rfl
@[simp] theorem State.withCfg_readData : (s.withCfg x).readData = s.readData := rfl
end

section
variable (x : Driver)
@[simp] theorem State.withDrv_params : (s.withDrv x).params = s.params := rfl
@[simp] theorem State.withDrv_cfg : (s.withDrv x).cfg = s.cfg := rfl
@[simp] theorem State.withDrv_drv : (s.withDrv x).drv = x := rfl
@[simp] theorem State.withDrv_load : (s.withDrv x).load = s.load := rfl
@[simp] theorem State.withDrv_stream : (s.withDrv x).stream = s.stream := rfl
@[simp] theorem State.withDrv_env : (s.withDrv x).env = s.env := rfl
@[simp] theorem State.withDrv_blkSel : (s.withDrv x).blkSel = s.blkSel := rfl
@[simp] theorem State.withDrv_src : (s.withDrv x).src = s.src := rfl
@[simp] theorem State.withDrv_held : (s.withDrv x).held = s.held := rfl
@[simp] theorem State.withDrv_host : (s.withDrv x).host = s.host := rfl
@[simp] theorem State.withDrv_readData : (s.withDrv x).readData = s.readData := rfl
end

section
variable (x : Loader)
@[simp] theorem State.withLoad_params : (s.withLoad x).params = s.params := rfl
@[simp] theorem State.withLoad_cfg : (s.withLoad x).cfg = s.cfg := rfl
@[simp] theorem State.withLoad_drv : (s.withLoad x).drv = s.drv := rfl
@[simp] theorem State.withLoad_load : (s.withLoad x).load = x := rfl
@[simp] theorem State.withLoad_stream : (s.withLoad x).stream = s.stream := rfl
@[simp] theorem State.withLoad_env : (s.withLoad x).env = s.env := rfl
@[simp] theorem State.withLoad_blkSel : (s.withLoad x).blkSel = s.blkSel := rfl
@[simp] theorem State.withLoad_src : (s.withLoad x).src = s.src := rfl
@[simp] theorem State.withLoad_held : (s.withLoad x).held = s.held := rfl
@[simp] theorem State.withLoad_host : (s.withLoad x).host = s.host := rfl
@[simp] theorem State.withLoad_readData : (s.withLoad x).readData = s.readData := rfl
end

section
variable (x : Stream)
@[simp] theorem State.withStream_params : (s.withStream x).params = s.params := rfl
@[simp] theorem State.withStream_cfg : (s.withStream x).cfg = s.cfg := rfl
@[simp] theorem State.withStream_drv : (s.withStream x).drv = s.drv := rfl
@[simp] theorem State.withStream_load : (s.withStream x).load = s.load := rfl
@[simp] theorem State.withStream_stream : (s.withStream x).stream = x := rfl
@[simp] theorem State.withStream_env : (s.withStream x).env = s.env := rfl
@[simp] theorem State.withStream_blkSel : (s.withStream x).blkSel = s.blkSel := rfl
@[simp] theorem State.withStream_src : (s.withStream x).src = s.src := rfl
@[simp] theorem State.withStream_held : (s.withStream x).held = s.held := rfl
@[simp] theorem State.withStream_host : (s.withStream x).host = s.host := rfl
@[simp] theorem State.withStream_readData : (s.withStream x).readData = s.readData := rfl
end

section
variable (x : Env)
@[simp] theorem State.withEnv_params : (s.withEnv x).params = s.params := rfl
@[simp] theorem State.withEnv_cfg : (s.withEnv x).cfg = s.cfg := rfl
@[simp] theorem State.withEnv_drv : (s.withEnv x).drv = s.drv := rfl
@[simp] theorem State.withEnv_load : (s.withEnv x).load = s.load := rfl
@[simp] theorem State.withEnv_stream : (s.withEnv x).stream = s.stream := rfl
@[simp] theorem State.withEnv_env : (s.withEnv x).env = x := rfl
@[simp] theorem State.withEnv_blkSel : (s.withEnv x).blkSel = s.blkSel := rfl
@[simp] theorem State.withEnv_src : (s.withEnv x).src = s.src := rfl
@[simp] theorem State.withEnv_held : (s.withEnv x).held = s.held := rfl
@[simp] theorem State.withEnv_host : (s.withEnv x).host = s.host := rfl
@[simp] theorem State.withEnv_readData : (s.withEnv x).readData = s.readData := rfl
end

section
variable (x : BitVec 31)
@[simp] theorem State.withBlkSel_params : (s.withBlkSel x).params = s.params := rfl
@[simp] theorem State.withBlkSel_cfg : (s.withBlkSel x).cfg = s.cfg := rfl
@[simp] theorem State.withBlkSel_drv : (s.withBlkSel x).drv = s.drv := rfl
@[simp] theorem State.withBlkSel_load : (s.withBlkSel x).load = s.load := rfl
@[simp] theorem State.withBlkSel_stream : (s.withBlkSel x).stream = s.stream := rfl
@[simp] theorem State.withBlkSel_env : (s.withBlkSel x).env = s.env := rfl
@[simp] theorem State.withBlkSel_blkSel : (s.withBlkSel x).blkSel = x := rfl
@[simp] theorem State.withBlkSel_src : (s.withBlkSel x).src = s.src := rfl
@[simp] theorem State.withBlkSel_held : (s.withBlkSel x).held = s.held := rfl
@[simp] theorem State.withBlkSel_host : (s.withBlkSel x).host = s.host := rfl
@[simp] theorem State.withBlkSel_readData : (s.withBlkSel x).readData = s.readData := rfl
end

section
variable (x : Memory)
@[simp] theorem State.withSrc_params : (s.withSrc x).params = s.params := rfl
@[simp] theorem State.withSrc_cfg : (s.withSrc x).cfg = s.cfg := rfl
@[simp] theorem State.withSrc_drv : (s.withSrc x).drv = s.drv := rfl
@[simp] theorem State.withSrc_load : (s.withSrc x).load = s.load := rfl
@[simp] theorem State.withSrc_stream : (s.withSrc x).stream = s.stream := rfl
@[simp] theorem State.withSrc_env : (s.withSrc x).env = s.env := rfl
@[simp] theorem State.withSrc_blkSel : (s.withSrc x).blkSel = s.blkSel := rfl
@[simp] theorem State.withSrc_src : (s.withSrc x).src = x := rfl
@[simp] theorem State.withSrc_held : (s.withSrc x).held = s.held := rfl
@[simp] theorem State.withSrc_host : (s.withSrc x).host = s.host := rfl
@[simp] theorem State.withSrc_readData : (s.withSrc x).readData = s.readData := rfl
end

section
variable (x : List (BitVec 2))
@[simp] theorem State.withHeld_params : (s.withHeld x).params = s.params := rfl
@[simp] theorem State.withHeld_cfg : (s.withHeld x).cfg = s.cfg := rfl
@[simp] theorem State.withHeld_drv : (s.withHeld x).drv = s.drv := rfl
@[simp] theorem State.withHeld_load : (s.withHeld x).load = s.load := rfl
@[simp] theorem State.withHeld_stream : (s.withHeld x).stream = s.stream := rfl
@[simp] theorem State.withHeld_env : (s.withHeld x).env = s.env := rfl
@[simp] theorem State.withHeld_blkSel : (s.withHeld x).blkSel = s.blkSel := rfl
@[simp] theorem State.withHeld_src : (s.withHeld x).src = s.src := rfl
@[simp] theorem State.withHeld_held : (s.withHeld x).held = x := rfl
@[simp] theorem State.withHeld_host : (s.withHeld x).host = s.host := rfl
@[simp] theorem State.withHeld_readData : (s.withHeld x).readData = s.readData := rfl
end

section
variable (x : List HostEntry)
@[simp] theorem State.withHost_params : (s.withHost x).params = s.params := rfl
@[simp] theorem State.withHost_cfg : (s.withHost x).cfg = s.cfg := rfl
@[simp] theorem State.withHost_drv : (s.withHost x).drv = s.drv := rfl
@[simp] theorem State.withHost_load : (s.withHost x).load = s.load := rfl
@[simp] theorem State.withHost_stream : (s.withHost x).stream = s.stream := rfl
@[simp] theorem State.withHost_env : (s.withHost x).env = s.env := rfl
@[simp] theorem State.withHost_blkSel : (s.withHost x).blkSel = s.blkSel := rfl
@[simp] theorem State.withHost_src : (s.withHost x).src = s.src := rfl
@[simp] theorem State.withHost_held : (s.withHost x).held = s.held := rfl
@[simp] theorem State.withHost_host : (s.withHost x).host = x := rfl
@[simp] theorem State.withHost_readData : (s.withHost x).readData = s.readData := rfl
end

section
variable (x : Word)
@[simp] theorem State.withReadData_params : (s.withReadData x).params = s.params := rfl
@[simp] theorem State.withReadData_cfg : (s.withReadData x).cfg = s.cfg := rfl
@[simp] theorem State.withReadData_drv : (s.withReadData x).drv = s.drv := rfl
@[simp] theorem State.withReadData_load : (s.withReadData x).load = s.load := rfl
@[simp] theorem State.withReadData_stream : (s.withReadData x).stream = s.stream := rfl
@[simp] theorem State.withReadData_env : (s.withReadData x).env = s.env := rfl
@[simp] theorem State.withReadData_blkSel : (s.withReadData x).blkSel = s.blkSel := rfl
@[simp] theorem State.withReadData_src : (s.withReadData x).src = s.src := rfl
@[simp] theorem State.withReadData_held : (s.withReadData x).held = s.held := rfl
@[simp] theorem State.withReadData_host : (s.withReadData x).host = s.host := rfl
@[simp] theorem State.withReadData_readData : (s.withReadData x).readData = x := rfl
end

/-- An update with the field's own value changes nothing. -/
@[simp] theorem State.withCfg_self : s.withCfg s.cfg = s := rfl
@[simp] theorem State.withDrv_self : s.withDrv s.drv = s := rfl
@[simp] theorem State.withLoad_self : s.withLoad s.load = s := rfl
@[simp] theorem State.withStream_self : s.withStream s.stream = s := rfl
@[simp] theorem State.withEnv_self : s.withEnv s.env = s := rfl
@[simp] theorem State.withHost_self : s.withHost s.host = s := rfl

end Sys2Proof.Machine
end

