-- ==== Sys2Proof/Laws/Memory.lean ====
section
/-! SUPPORT. The laws of the source bytes and of the block store: read after write, and what each
operation keeps. -/

namespace Sys2Proof.Machine

/-! ### Source bytes -/

theorem Memory.wfFrom_cons {lo a : Nat} {v : Byte} {m : Memory} :
    Memory.wfFrom lo ((a, v) :: m) = true ↔
      lo ≤ a ∧ a < 2 ^ srcAddrW ∧ v ≠ unlistedByte ∧ Memory.wfFrom (a + 1) m = true := by
  simp only [Memory.wfFrom, Bool.and_eq_true, decide_eq_true_eq]
  tauto

/-- A canonical memory from a lower address on is canonical. -/
theorem Memory.wfFrom_mono {lo lo' : Nat} {m : Memory} (hle : lo' ≤ lo) (h : Memory.wfFrom lo m = true) :
    Memory.wfFrom lo' m = true := by
  cases m with
  | nil => rfl
  | cons c m =>
    obtain ⟨a, v⟩ := c
    rw [Memory.wfFrom_cons] at h ⊢
    exact ⟨by omega, h.2⟩

/-- Below the first address a canonical memory lists nothing. -/
theorem Memory.read_below {lo a : Nat} {m : Memory} (h : Memory.wfFrom lo m = true) (ha : a < lo) :
    Memory.read m a = unlistedByte := by
  induction m generalizing lo with
  | nil => rfl
  | cons c m ih =>
    obtain ⟨b, w⟩ := c
    rw [Memory.wfFrom_cons] at h
    have hne : a ≠ b := by omega
    simp only [Memory.read, hne, if_false]
    exact ih h.2.2.2 (by omega)

theorem Memory.read_write_sameFrom {lo : Nat} (m : Memory) (a : Nat) (v : Byte)
    (h : Memory.wfFrom lo m = true) : Memory.read (Memory.write m a v) a = v := by
  induction m generalizing lo with
  | nil => by_cases hv : v = unlistedByte <;> simp [Memory.write, Memory.read, hv]
  | cons c m ih =>
    obtain ⟨b, w⟩ := c
    rw [Memory.wfFrom_cons] at h
    rcases Nat.lt_trichotomy a b with hlt | heq | hgt
    · by_cases hv : v = unlistedByte
      · have hm := Memory.read_below (lo := b) (a := a) (m := (b, w) :: m)
          (Memory.wfFrom_cons.2 ⟨le_refl b, h.2⟩) hlt
        simp only [Memory.write, hlt, hv, if_true, hm]
      · simp [Memory.write, Memory.read, hlt, hv]
    · subst heq
      by_cases hv : v = unlistedByte
      · simp [Memory.write, hv, Memory.read_below h.2.2.2 (Nat.lt_succ_self a)]
      · simp [Memory.write, Memory.read, hv]
    · have h1 : ¬ a < b := by omega
      have h2 : a ≠ b := by omega
      simp only [Memory.write, h1, h2, if_false, Memory.read]
      exact ih h.2.2.2

/-- A read after a write of the same byte gives the byte written. -/
theorem Memory.read_write_same {m : Memory} (h : Memory.wf m = true) (a : Nat) (v : Byte) :
    Memory.read (Memory.write m a v) a = v := Memory.read_write_sameFrom m a v h

/-- A write leaves every other byte alone. -/
theorem Memory.read_write_other (m : Memory) {a x : Nat} (v : Byte) (hx : x ≠ a) :
    Memory.read (Memory.write m a v) x = Memory.read m x := by
  induction m with
  | nil => by_cases hv : v = unlistedByte <;> simp [Memory.write, Memory.read, hv, hx]
  | cons c m ih =>
    obtain ⟨b, w⟩ := c
    simp only [Memory.write]
    split_ifs <;> simp_all [Memory.read]

theorem Memory.wfFrom_write {lo : Nat} (m : Memory) {a : Nat} (v : Byte) (h : Memory.wfFrom lo m = true)
    (hlo : lo ≤ a) (ha : a < 2 ^ srcAddrW) : Memory.wfFrom lo (Memory.write m a v) = true := by
  induction m generalizing lo with
  | nil =>
    by_cases hv : v = unlistedByte
    · simp [Memory.write, Memory.wfFrom, hv]
    · simp only [Memory.write, hv, if_false, Memory.wfFrom_cons]
      exact ⟨hlo, ha, hv, rfl⟩
  | cons c m ih =>
    obtain ⟨b, w⟩ := c
    have h' := h
    rw [Memory.wfFrom_cons] at h
    rcases Nat.lt_trichotomy a b with hlt | heq | hgt
    · by_cases hv : v = unlistedByte
      · simpa [Memory.write, hlt, hv] using h'
      · simp only [Memory.write, hlt, hv, if_true, if_false, Memory.wfFrom_cons]
        exact ⟨hlo, ha, hv, by omega, h.2⟩
    · subst heq
      by_cases hv : v = unlistedByte
      · simp only [Memory.write, hv, if_true, lt_irrefl, if_false]
        exact Memory.wfFrom_mono (by omega) h.2.2.2
      · simp only [Memory.write, hv, if_true, lt_irrefl, if_false, Memory.wfFrom_cons]
        exact ⟨hlo, ha, hv, h.2.2.2⟩
    · have h1 : ¬ a < b := by omega
      have h2 : a ≠ b := by omega
      simp only [Memory.write, h1, h2, if_false, Memory.wfFrom_cons]
      exact ⟨h.1, h.2.1, h.2.2.1, ih h.2.2.2 (by omega)⟩

/-- A write inside the address space keeps the canonical form. -/
theorem Memory.wf_write {m : Memory} (h : Memory.wf m = true) {a : Nat} (ha : a < 2 ^ srcAddrW) (v : Byte) :
    Memory.wf (Memory.write m a v) = true := Memory.wfFrom_write m v h (Nat.zero_le a) ha

/-- Writing a list of bytes inside the address space keeps the canonical form. -/
theorem Memory.wf_writeList {m : Memory} (h : Memory.wf m = true) {a : Nat} (vs : List Byte)
    (ha : a + vs.length ≤ 2 ^ srcAddrW) : Memory.wf (Memory.writeList m a vs) = true := by
  induction vs generalizing m a with
  | nil => exact h
  | cons v vs ih =>
    simp only [List.length_cons] at ha
    exact ih (Memory.wf_write h (by omega) v) (by omega)

theorem reset_memory_wf : Memory.wf State.reset.src = true := rfl

/-- The LOAD step's reads: below CFG_SRCLEN each gives the source byte, in rising order. -/
theorem memReadBytes_eq (s : State) (a n : Nat) (h : a + n ≤ s.cfg.srclen.toNat) :
    memReadBytes s a n = some ((List.range n).map fun k => s.src.read (a + k)) := by
  induction n generalizing a with
  | zero => rfl
  | succ n ih =>
    have h1 : memRead s a = some (s.src.read a) := if_pos (by omega)
    simp only [memReadBytes, h1, ih (a + 1) (by omega), List.range_succ_eq_map, List.map_cons,
      List.map_map, Nat.add_zero, Option.some.injEq, List.cons.injEq, true_and]
    apply List.map_congr_left
    intro k _
    simp only [Function.comp_apply, Nat.succ_eq_add_one, Nat.add_comm k 1, Nat.add_assoc]

/-! ### The block store -/

theorem writeBlk_length (blk : List BlockRec) (i : Nat) (r : BlockRec) :
    (writeBlk blk i r).length = max (i + 1) blk.length := by
  simp only [writeBlk, List.length_append, List.length_map, List.length_range, List.length_cons,
    List.length_drop]
  omega

theorem readBlk_of_lt {blk : List BlockRec} {i : Nat} (h : i < blk.length) : readBlk blk i = blk[i] := by
  simp [readBlk, List.getD_eq_getElem?_getD, List.getElem?_eq_getElem h]

/-- The record just written. -/
theorem readBlk_writeBlk_same (blk : List BlockRec) (i : Nat) (r : BlockRec) :
    readBlk (writeBlk blk i r) i = r := by
  simp [readBlk, writeBlk, List.getD_eq_getElem?_getD]

/-- Every other entry keeps what it held, written or not. -/
theorem readBlk_writeBlk_other (blk : List BlockRec) {i j : Nat} (r : BlockRec) (h : j ≠ i) :
    readBlk (writeBlk blk i r) j = readBlk blk j := by
  simp only [readBlk, writeBlk, List.getD_eq_getElem?_getD]
  rcases Nat.lt_or_gt_of_ne h with hlt | hgt
  · rw [List.getElem?_append_left (by simpa using hlt)]
    simp [hlt, readBlk, List.getD_eq_getElem?_getD]
  · rw [List.getElem?_append_right (by simp; omega)]
    obtain ⟨d, rfl⟩ : ∃ d, j = i + 1 + d := ⟨j - (i + 1), by omega⟩
    simp [Nat.add_comm, Nat.add_left_comm]

end Sys2Proof.Machine
end

