-- ==== Sys2Proof/Laws/Assembly.lean ====
section
/-! SUPPORT. The laws of the assembled programs: the source memory keeps its form, and a `.org` with no
byte after it does not move the program's end. -/

namespace Sys2Proof.Machine

theorem writeCells_wf {m : Memory} (h : Memory.wf m = true) (cs : List Host.Cell)
    (hc : ∀ c ∈ cs, c.1 < 2 ^ srcAddrW) : Memory.wf (writeCells m cs) = true := by
  induction cs generalizing m with
  | nil => exact h
  | cons c cs ih =>
    exact ih (Memory.wf_write h (hc c (by simp)) c.2) fun d hd => hc d (by simp [hd])

/-- A program that fits the source address space leaves the source memory in its form. -/
theorem loadProgram_wf {ls : List AsmLine} {s : State} (h : Memory.wf s.src = true)
    (hf : programFits ls = true) : Memory.wf (loadProgram ls s).src = true := by
  refine writeCells_wf h _ fun c hc => ?_
  have := List.all_eq_true.1 hf c hc
  simp only [decide_eq_true_eq] at this
  omega

/-- A last `.org` assembles no byte. -/
theorem assembleCells_append_org (ls : List AsmLine) (a b : Nat) :
    assembleCells (ls ++ [.org b]) a = assembleCells ls a := by
  induction ls generalizing a with
  | nil => rfl
  | cons l ls ih => cases l <;> simp [assembleCells, ih]

theorem programEnd_append_org (ls : List AsmLine) (b : Nat) : programEnd (ls ++ [.org b]) = programEnd ls := by
  simp [programEnd, assembleCells_append_org]

end Sys2Proof.Machine
end

