-- ==== Sys2Proof/Laws/Operands.lean ====
section
/-! SUPPORT. The laws of the arithmetic, the operand forms and the encoded fields. -/

namespace Sys2Proof.Machine

theorem fitsSigned_iff {w : Nat} {v : Int} :
    fitsSigned w v = true ↔ -(2 ^ (w - 1)) ≤ v ∧ v ≤ 2 ^ (w - 1) - 1 := by
  simp [fitsSigned]

theorem fitsSigned_zero (w : Nat) : fitsSigned w 0 = true := by
  have h : (1 : Int) ≤ 2 ^ (w - 1) := one_le_pow₀ (by decide)
  rw [fitsSigned_iff]
  omega

/-- A value between 0 and one that fits, fits. -/
theorem fitsSigned_between {w : Nat} {v o : Int} (hv : fitsSigned w v = true)
    (h : (0 ≤ o ∧ o ≤ v) ∨ (v ≤ o ∧ o ≤ 0)) : fitsSigned w o = true := by
  have h1 : (1 : Int) ≤ 2 ^ (w - 1) := one_le_pow₀ (by decide)
  rw [fitsSigned_iff] at hv ⊢
  omega

/-! ### The level -/

theorem clamp_nonneg (x : Int) : 0 ≤ clamp x := by simp [clamp]

theorem clamp_le (x : Int) : clamp x ≤ 0x7ff := by simp [clamp]

/-- The level register holds the clamped value. -/
theorem clampLevel_toInt (x : Int) : ((clampLevel x).toNat : Int) = clamp x := by
  have h0 := clamp_nonneg x
  have h1 := clamp_le x
  simp only [clampLevel, BitVec.toNat_ofNat]
  omega

theorem clampLevel_le (x : Int) : (clampLevel x).toNat ≤ 0x7ff := by
  have h := clampLevel_toInt x
  have h1 := clamp_le x
  omega

theorem directLevel_toNat (g : BitVec 7) : (directLevel g).toNat = g.toNat * 16 := by
  have := g.isLt
  simp only [directLevel, BitVec.toNat_shiftLeft, BitVec.toNat_setWidth, Nat.shiftLeft_eq]
  omega

/-! ### The rate table -/

/-- Under the parameters' bounds a period is at most 2048. -/
theorem ratePeriod_le {p : Params} (h : p.wf) (idx : BitVec 5) : ratePeriod p.rateTable idx ≤ 2048 := by
  by_cases h0 : (⟨idx.toNat, idx.isLt⟩ : Fin 32) = 0
  · have h1 : idx.toNat = 0 := congrArg Fin.val h0
    simp only [ratePeriod, h1]
    rw [h.2.2.2.1]
    decide
  · exact (h.2.2.2.2.2 ⟨idx.toNat, idx.isLt⟩ h0).2

/-- Under the parameters' bounds only index 0 has period 0. -/
theorem ratePeriod_pos {p : Params} (h : p.wf) {idx : BitVec 5} (hi : idx ≠ 0) :
    1 ≤ ratePeriod p.rateTable idx := by
  refine (h.2.2.2.2.2 ⟨idx.toNat, idx.isLt⟩ ?_).1
  intro h0
  exact hi (BitVec.eq_of_toNat_eq (congrArg Fin.val h0))

theorem attackIndex_eq_iff (a : BitVec 4) : attackIndex a = 31 ↔ a = 15 := by
  revert a
  decide

theorem attackIndex_ne_zero (a : BitVec 4) : attackIndex a ≠ 0 := by
  revert a
  decide

/-! ### Fields of the header -/

@[simp] theorem headerRange_packHeader (r : BitVec 4) (f : BitVec 2) (l e : Bool) :
    headerRange (packHeader r f l e) = r := by
  revert r f l e
  decide

@[simp] theorem headerFilter_packHeader (r : BitVec 4) (f : BitVec 2) (l e : Bool) :
    headerFilter (packHeader r f l e) = f := by
  revert r f l e
  decide

@[simp] theorem headerLoop_packHeader (r : BitVec 4) (f : BitVec 2) (l e : Bool) :
    headerLoop (packHeader r f l e) = l := by
  revert r f l e
  decide

@[simp] theorem headerEnd_packHeader (r : BitVec 4) (f : BitVec 2) (l e : Bool) :
    headerEnd (packHeader r f l e) = e := by
  revert r f l e
  decide

/-- A header byte is its fields. -/
@[simp] theorem packHeader_fields (h : Byte) :
    packHeader (headerRange h) (headerFilter h) (headerLoop h) (headerEnd h) = h := by
  revert h
  decide

/-! ### Nibbles -/

theorem unpackNibbles_length (ds : List Byte) : (unpackNibbles ds).length = 2 * ds.length := by
  induction ds with
  | nil => rfl
  | cons d ds ih => simp only [unpackNibbles, List.length_cons, ih]; omega

theorem packNibbles_unpackNibbles (ds : List Byte) : packNibbles (unpackNibbles ds) = ds := by
  induction ds with
  | nil => rfl
  | cons d ds ih =>
    have h : d.extractLsb' 4 4 ++ d.extractLsb' 0 4 = d := by revert d; decide
    rw [unpackNibbles, packNibbles, ih, h]

theorem unpackNibbles_append (hi lo : BitVec 4) (ds : List Byte) :
    unpackNibbles ((hi ++ lo) :: ds) = hi :: lo :: unpackNibbles ds := by
  have h : ∀ hi lo : BitVec 4, (hi ++ lo).extractLsb' 4 4 = hi ∧ (hi ++ lo).extractLsb' 0 4 = lo := by decide
  rw [unpackNibbles, (h hi lo).1, (h hi lo).2]

/-- Nibble codes packed into bytes and unpacked again, for an even number of them. -/
theorem unpackNibbles_packNibbles (k : Nat) (ns : List (BitVec 4)) (h : ns.length = 2 * k) :
    unpackNibbles (packNibbles ns) = ns := by
  induction k generalizing ns with
  | zero => rw [List.length_eq_zero_iff.1 h]; rfl
  | succ k ih =>
    match ns, h with
    | hi :: lo :: cs, h =>
      simp only [List.length_cons] at h
      rw [packNibbles, unpackNibbles_append, ih cs (by omega)]

/-- The record of a parsed block holds its 16 nibble codes in order. -/
theorem blockRecord_nib {r : BitVec 4} {f : BitVec 2} {l e : Bool} {ns : List (BitVec 4)} {k : Nat} (hk : k < 16) :
    (blockRecord r f l e ns).nib[k] = ns.getD k 0 := by
  simp [blockRecord]

theorem blockRecord_nib_toList {r : BitVec 4} {f : BitVec 2} {l e : Bool} {ns : List (BitVec 4)}
    (h : ns.length = 16) : (blockRecord r f l e ns).nib.toList = ns := by
  apply List.ext_getElem
  · simp [h]
  · intro k h1 h2
    simp [blockRecord, List.getElem?_eq_getElem h2]

end Sys2Proof.Machine
end

