-- ==== Sys2Proof/Laws/Envelope.lean ====
section
/-! SUPPORT. What each envelope operation does to each envelope register, and that each keeps the
registers' ranges. -/

namespace Sys2Proof.Machine

/-! ### The counter -/

theorem tickDue_iff {table : Vector Nat 32} {idx : BitVec 5} {c : BitVec 12} :
    tickDue table idx c = true ↔ ratePeriod table idx ≠ 0 ∧ ratePeriod table idx ≤ c.toNat + 1 := by
  simp [tickDue]

/-- The counter stays at most 2047 when every period is at most 2048. -/
theorem tickCount_le {table : Vector Nat 32} {idx : BitVec 5} {c : BitVec 12}
    (hp : ratePeriod table idx ≤ 2048) (hc : c.toNat ≤ 2047) : (tickCount table idx c).toNat ≤ 2047 := by
  unfold tickCount
  split
  · exact hc
  · rename_i h0
    split
    · exact Nat.zero_le _
    · rename_i h1
      have h2 : ¬ (ratePeriod table idx ≠ 0 ∧ ratePeriod table idx ≤ c.toNat + 1) := by
        rw [← tickDue_iff]
        exact h1
      have h3 : c.toNat + 1 < 2048 := by omega
      have h4 : (1 : BitVec 12).toNat = 1 := rfl
      simp only [BitVec.toNat_add, h4]
      omega

/-! ### onTick -/

section
variable (table : Vector Nat 32) (idx : BitVec 5) (f : Int → Int) (e : Env)
@[simp] theorem onTick_kind : (onTick table idx f e).kind = e.kind := rfl
@[simp] theorem onTick_phase : (onTick table idx f e).phase = e.phase := rfl
@[simp] theorem onTick_cnt : (onTick table idx f e).cnt = tickCount table idx e.cnt := rfl
@[simp] theorem onTick_level : (onTick table idx f e).level =
    if tickDue table idx e.cnt then clampLevel (f e.level.toNat) else e.level := rfl
@[simp] theorem onTick_attackRate : (onTick table idx f e).attackRate = e.attackRate := rfl
@[simp] theorem onTick_decayRate : (onTick table idx f e).decayRate = e.decayRate := rfl
@[simp] theorem onTick_sustainLevel : (onTick table idx f e).sustainLevel = e.sustainLevel := rfl
@[simp] theorem onTick_sustainRate : (onTick table idx f e).sustainRate = e.sustainRate := rfl
@[simp] theorem onTick_gainRate : (onTick table idx f e).gainRate = e.gainRate := rfl
end

/-- After a tick or without one, a level at most 0x7ff stays so. -/
theorem onTick_level_le {table : Vector Nat 32} {idx : BitVec 5} {f : Int → Int} {e : Env}
    (h : e.level.toNat ≤ 0x7ff) : (onTick table idx f e).level.toNat ≤ 0x7ff := by
  rw [onTick_level]
  split
  · exact clampLevel_le _
  · exact h

/-! ### The steps, in one form: a tick, then perhaps a transition -/

theorem attackStep_eq (table : Vector Nat 32) (e : Env) :
    attackStep table e =
      (if attackEnds (onTick table (attackIndex e.attackRate) (fun l => l + attackIncrement e.attackRate) e).level
        then enterPhase 1 (onTick table (attackIndex e.attackRate) (fun l => l + attackIncrement e.attackRate) e)
        else onTick table (attackIndex e.attackRate) (fun l => l + attackIncrement e.attackRate) e) := rfl

theorem decayStep_eq (table : Vector Nat 32) (e : Env) :
    decayStep table e =
      (if decayEnds e.sustainLevel (onTick table (decayIndex e.decayRate) decayed e).level
        then enterPhase 2 (onTick table (decayIndex e.decayRate) decayed e)
        else onTick table (decayIndex e.decayRate) decayed e) := rfl

theorem sustainStep_eq (table : Vector Nat 32) (e : Env) :
    sustainStep table e =
      (if sustainEnds (onTick table e.sustainRate decayed e).level
        then enterPhase 3 (onTick table e.sustainRate decayed e)
        else onTick table e.sustainRate decayed e) := rfl

/-- Every step of an Advance is a tick of the envelope, such a tick with a transition, or the release
step; RELEASE is entered at level 0 only. -/
theorem advanceEnv_cases (table : Vector Nat 32) (e : Env) :
    (e.kind = .gainDirect ∧ advanceEnv table e = e) ∨
    (e.kind ≠ .gainDirect ∧ ∃ idx f, (e.kind = .adsr → e.phase ≠ 3) ∧ advanceEnv table e = onTick table idx f e) ∨
    (e.kind = .adsr ∧ ∃ idx f p, (p = 3 → (onTick table idx f e).level = 0) ∧
      advanceEnv table e = enterPhase p (onTick table idx f e)) ∨
    (e.kind = .adsr ∧ e.phase = 3 ∧ advanceEnv table e = releaseStep e) := by
  have phases : ∀ p : BitVec 2, p.getLsbD 1 = false ∨ p.getLsbD 0 = false → p ≠ 3 := by decide
  have phase3 : ∀ p : BitVec 2, p.getLsbD 1 = true → p.getLsbD 0 = true → p = 3 := by decide
  unfold advanceEnv
  split
  · rename_i hk
    exact .inl ⟨hk, rfl⟩
  · rename_i hk
    refine .inr (.inl ⟨by simp [hk], ?_⟩)
    split <;> exact ⟨_, _, by simp [hk], rfl⟩
  · rename_i hk
    split
    · rename_i h1 h0
      rw [attackStep_eq]
      split
      · exact .inr (.inr (.inl ⟨hk, _, _, 1, fun h => absurd h (by decide), rfl⟩))
      · exact .inr (.inl ⟨by simp [hk], _, _, fun _ => phases _ (.inl h1), rfl⟩)
    · rename_i h1 h0
      rw [decayStep_eq]
      split
      · exact .inr (.inr (.inl ⟨hk, _, _, 2, fun h => absurd h (by decide), rfl⟩))
      · exact .inr (.inl ⟨by simp [hk], _, _, fun _ => phases _ (.inl h1), rfl⟩)
    · rename_i h1 h0
      rw [sustainStep_eq]
      split
      · rename_i hz
        exact .inr (.inr (.inl ⟨hk, _, _, 3, fun _ => of_decide_eq_true hz, rfl⟩))
      · exact .inr (.inl ⟨by simp [hk], _, _, fun _ => phases _ (.inr h0), rfl⟩)
    · rename_i h1 h0
      exact .inr (.inr (.inr ⟨hk, phase3 _ h1 h0, rfl⟩))

/-- An Advance never changes the kind (42_envelope.md R163). -/
theorem advanceEnv_kind (table : Vector Nat 32) (e : Env) : (advanceEnv table e).kind = e.kind := by
  rcases advanceEnv_cases table e with ⟨_, h⟩ | ⟨_, _, _, _, h⟩ | ⟨_, _, _, _, _, h⟩ | ⟨_, _, h⟩ <;> rw [h] <;> rfl

/-- An Advance keeps the ranges. -/
theorem advanceEnv_inRange {p : Params} (hp : p.wf) {e : Env} (h : e.inRange) :
    (advanceEnv p.rateTable e).inRange := by
  obtain ⟨h1, h2, h3, h4⟩ := h
  rcases advanceEnv_cases p.rateTable e with ⟨_, h⟩ | ⟨hk, idx, f, hph, h⟩ | ⟨hk, idx, f, q, hq, h⟩ | ⟨hk, hph, h⟩
  · rw [h]
    exact ⟨h1, h2, h3, h4⟩
  · rw [h]
    exact ⟨fun hd => absurd hd hk, fun _ => onTick_level_le (h2 hk), fun ha h3' => absurd h3' (hph ha),
      tickCount_le (ratePeriod_le hp idx) h4⟩
  · rw [h]
    have hd : e.kind ≠ .gainDirect := by simp [hk]
    exact ⟨fun hd' => absurd hd' hd, fun _ => onTick_level_le (h2 hd), fun _ h3' => hq h3', Nat.zero_le _⟩
  · rw [h]
    have hd : e.kind ≠ .gainDirect := by simp [hk]
    have hl : e.level = 0 := h3 hk hph
    have hz : (releaseStep e).level = 0 := by
      simp [releaseStep, hl, clampLevel, clamp]
    exact ⟨fun hd' => absurd hd' hd, fun _ => by rw [hz]; decide, fun _ _ => hz, h4⟩

/-- A construction gives an envelope in its ranges. -/
theorem constructEnv_inRange (c : Cfg) (e : Env) : (constructEnv c e).inRange := by
  unfold constructEnv
  split
  · simp [constructAdsr, Env.inRange]
  · split
    · split
      · simp only [constructCustom, Env.inRange]
        split <;> simp
      · simp only [constructDirect, Env.inRange, directLevel_toNat, ne_eq, not_true_eq_false, false_implies]
        have := (BitVec.extractLsb' 0 7 c.gain.value).isLt
        refine ⟨fun _ => ⟨by trivial, by omega, by omega⟩, trivial, by simp, by simp⟩
    · simp [constructDefault, Env.inRange]

end Sys2Proof.Machine
end

