-- ==== Sys2Proof/Laws/PerInstr.lean ====
section
/-! SUPPORT. The family TableRow: the encoding of every instruction has the format of its row of
spec/opcode_table.json, and the row's match value under the row's mask. -/

namespace Sys2Proof.Laws

/-- The six formats of the opcode table. -/
inductive Format where
  | blockHeader
  | gainByte
  | adsrWord
  | envPhase
  | config
  | ctrl
deriving DecidableEq, Repr

/-- The format of an encoded input. A block's row is over its header byte. -/
def inputFormat : Input → Format
  | .block _ => .blockHeader
  | .header _ => .blockHeader
  | .gain _ => .gainByte
  | .adsr _ => .adsrWord
  | .phase _ => .envPhase
  | .config _ _ => .config
  | .ctrl _ => .ctrl

/-- The bits of an encoded input that its row's mask is over. -/
def inputBits : Input → Nat
  | .block [] => 0
  | .block (h :: _) => h.toNat
  | .header h => h.toNat
  | .gain g => g.toNat
  | .adsr a => a.toNat
  | .phase p => p.toNat
  | .config _ _ => 0
  | .ctrl w => w.toNat

/-- The format, mask and match of an instruction's row. -/
def tableRow : Instr → Format × Nat × Nat
  | .parseBlock _ _ _ _ _ => (.blockHeader, 0x00, 0x00)
  | .filter0 _ _ _ => (.blockHeader, 0x0C, 0x00)
  | .filter1 _ _ _ => (.blockHeader, 0x0C, 0x04)
  | .filter2 _ _ _ => (.blockHeader, 0x0C, 0x08)
  | .filter3 _ _ _ => (.blockHeader, 0x0C, 0x0C)
  | .gainDirect _ => (.gainByte, 0x80, 0x00)
  | .gainLinearDecrease _ => (.gainByte, 0xE0, 0x80)
  | .gainExponentialDecrease _ => (.gainByte, 0xE0, 0xA0)
  | .gainLinearIncrease _ => (.gainByte, 0xE0, 0xC0)
  | .gainBentIncrease _ => (.gainByte, 0xE0, 0xE0)
  | .adsr _ _ _ _ _ => (.adsrWord, 0x0000, 0x0000)
  | .adsrAttack => (.envPhase, 0x3, 0x0)
  | .adsrDecay => (.envPhase, 0x3, 0x1)
  | .adsrSustain => (.envPhase, 0x3, 0x2)
  | .adsrRelease => (.envPhase, 0x3, 0x3)
  | .envDefault => (.config, 0x0, 0x0)
  | .nop => (.ctrl, 0x3, 0x0)
  | .start => (.ctrl, 0x3, 0x1)
  | .pull => (.ctrl, 0x3, 0x2)
  | .cmdReserved => (.ctrl, 0x3, 0x3)

end Sys2Proof.Laws

open Sys2Proof

/-- The encoding of `i` stands in the table where `i`'s row says. -/
def Sys2Proof.Laws.TableRow.Statement (i : Instr) : Prop :=
  Laws.inputFormat (encode i) = (Laws.tableRow i).1 ∧
  Laws.inputBits (encode i) &&& (Laws.tableRow i).2.1 = (Laws.tableRow i).2.2

theorem Sys2Proof.Laws.TableRow.parseBlock (range : BitVec 4) (filter : BitVec 2) (loop ends : Bool)
    (nibbles : List (BitVec 4)) :
    Laws.TableRow.Statement (.parseBlock range filter loop ends nibbles) :=
  ⟨rfl, Nat.and_zero _⟩

theorem Sys2Proof.Laws.TableRow.filter0 (range : BitVec 4) (loop ends : Bool) :
    Laws.TableRow.Statement (.filter0 range loop ends) := by
  refine ⟨rfl, ?_⟩
  revert range loop ends
  decide

theorem Sys2Proof.Laws.TableRow.filter1 (range : BitVec 4) (loop ends : Bool) :
    Laws.TableRow.Statement (.filter1 range loop ends) := by
  refine ⟨rfl, ?_⟩
  revert range loop ends
  decide

theorem Sys2Proof.Laws.TableRow.filter2 (range : BitVec 4) (loop ends : Bool) :
    Laws.TableRow.Statement (.filter2 range loop ends) := by
  refine ⟨rfl, ?_⟩
  revert range loop ends
  decide

theorem Sys2Proof.Laws.TableRow.filter3 (range : BitVec 4) (loop ends : Bool) :
    Laws.TableRow.Statement (.filter3 range loop ends) := by
  refine ⟨rfl, ?_⟩
  revert range loop ends
  decide

theorem Sys2Proof.Laws.TableRow.gainDirect (level : BitVec 7) :
    Laws.TableRow.Statement (.gainDirect level) := by
  refine ⟨rfl, ?_⟩
  revert level
  decide

theorem Sys2Proof.Laws.TableRow.gainLinearDecrease (rate : BitVec 5) :
    Laws.TableRow.Statement (.gainLinearDecrease rate) := by
  refine ⟨rfl, ?_⟩
  revert rate
  decide

theorem Sys2Proof.Laws.TableRow.gainExponentialDecrease (rate : BitVec 5) :
    Laws.TableRow.Statement (.gainExponentialDecrease rate) := by
  refine ⟨rfl, ?_⟩
  revert rate
  decide

theorem Sys2Proof.Laws.TableRow.gainLinearIncrease (rate : BitVec 5) :
    Laws.TableRow.Statement (.gainLinearIncrease rate) := by
  refine ⟨rfl, ?_⟩
  revert rate
  decide

theorem Sys2Proof.Laws.TableRow.gainBentIncrease (rate : BitVec 5) :
    Laws.TableRow.Statement (.gainBentIncrease rate) := by
  refine ⟨rfl, ?_⟩
  revert rate
  decide

theorem Sys2Proof.Laws.TableRow.adsr (enabled : Bool) (decayRate : BitVec 3) (attackRate : BitVec 4)
    (sustainLevel : BitVec 3) (sustainRate : BitVec 5) :
    Laws.TableRow.Statement (.adsr enabled decayRate attackRate sustainLevel sustainRate) :=
  ⟨rfl, Nat.and_zero _⟩

theorem Sys2Proof.Laws.TableRow.adsrAttack : Laws.TableRow.Statement .adsrAttack := ⟨rfl, rfl⟩

theorem Sys2Proof.Laws.TableRow.adsrDecay : Laws.TableRow.Statement .adsrDecay := ⟨rfl, rfl⟩

theorem Sys2Proof.Laws.TableRow.adsrSustain : Laws.TableRow.Statement .adsrSustain := ⟨rfl, rfl⟩

theorem Sys2Proof.Laws.TableRow.adsrRelease : Laws.TableRow.Statement .adsrRelease := ⟨rfl, rfl⟩

theorem Sys2Proof.Laws.TableRow.envDefault : Laws.TableRow.Statement .envDefault := ⟨rfl, rfl⟩

theorem Sys2Proof.Laws.TableRow.nop : Laws.TableRow.Statement .nop := ⟨rfl, rfl⟩

theorem Sys2Proof.Laws.TableRow.start : Laws.TableRow.Statement .start := ⟨rfl, rfl⟩

theorem Sys2Proof.Laws.TableRow.pull : Laws.TableRow.Statement .pull := ⟨rfl, rfl⟩

theorem Sys2Proof.Laws.TableRow.cmdReserved : Laws.TableRow.Statement .cmdReserved := ⟨rfl, rfl⟩
end

