-- ==== Sys2Proof/Laws/Stream.lean ====
section
/-! SUPPORT. What the Block Decoder, DecodeNext and the commands can do, said once. -/

namespace Sys2Proof.Machine

theorem hasNext_iff {s : State} : hasNext s = true ↔ s.stream.curBlock.toNat < s.load.nblk.toNat := by
  simp [hasNext]

/-! ### The error state -/

section
variable (c : ErrCode) (w : Word) (s : State)
@[simp] theorem raiseError_params : (raiseError c w s).params = s.params := rfl
@[simp] theorem raiseError_cfg : (raiseError c w s).cfg = s.cfg := rfl
@[simp] theorem raiseError_load : (raiseError c w s).load = s.load := rfl
@[simp] theorem raiseError_stream : (raiseError c w s).stream = s.stream := rfl
@[simp] theorem raiseError_env : (raiseError c w s).env = s.env := rfl
@[simp] theorem raiseError_blkSel : (raiseError c w s).blkSel = s.blkSel := rfl
@[simp] theorem raiseError_src : (raiseError c w s).src = s.src := rfl
@[simp] theorem raiseError_held : (raiseError c w s).held = s.held := rfl
@[simp] theorem raiseError_host : (raiseError c w s).host = s.host := rfl
@[simp] theorem raiseError_readData : (raiseError c w s).readData = s.readData := rfl
@[simp] theorem raiseError_drv : (raiseError c w s).drv =
    { s.drv with status := .error, errCode := c, errInfo := w, outValid := false } := rfl
end

/-! ### DecodeNext -/

theorem advanceCursor_prev (t : Stream) : (advanceCursor t).prev = t.prev := by
  unfold advanceCursor
  split <;> rfl

theorem advanceCursor_prev2 (t : Stream) : (advanceCursor t).prev2 = t.prev2 := by
  unfold advanceCursor
  split <;> rfl

/-- DecodeNext: on an exhausted stream nothing; else the filtered value is kept if it fits, and the
error state is entered if it does not. -/
theorem decodeWith_cases (f : BitVec 2) (r : BitVec 4) (s : State) :
    (hasNext s = false ∧ decodeWith f r s = .exhausted) ∨
    (hasNext s = true ∧ ∃ v,
      v = filterValue f (rawSample (currentNibble s) r) s.stream.prev s.stream.prev2 ∧
      ((fitsSigned s.params.histW v = true ∧
          decodeWith f r s = .sample (s.withStream (advanceCursor (pushHistory v s.stream)))) ∨
       (fitsSigned s.params.histW v = false ∧
          decodeWith f r s = .raised (raiseError .overflow (cursorWord s) s)))) := by
  unfold decodeWith
  cases hn : hasNext s with
  | false => exact .inl ⟨rfl, rfl⟩
  | true =>
    refine .inr ⟨rfl, _, rfl, ?_⟩
    simp only [if_true, commitSample]
    cases hf : fitsSigned s.params.histW
        (filterValue f (rawSample (currentNibble s) r) s.stream.prev s.stream.prev2) with
    | false => exact .inr ⟨rfl, rfl⟩
    | true => exact .inl ⟨rfl, rfl⟩

/-- The samples after DecodeNext and the rest of a PULL, or the error state; a fault only on an
exhausted stream. -/
theorem pullSample_cases (s : State) :
    (hasNext s = false ∧ pullSample s = .fault .streamExhausted) ∨
    (hasNext s = true ∧ ∃ v,
      v = filterValue (currentBlock s).filter (rawSample (currentNibble s) (currentBlock s).range)
        s.stream.prev s.stream.prev2 ∧
      ((fitsSigned s.params.histW v = true ∧
          pullSample s = .next (finishPull (s.withStream (advanceCursor (pushHistory v s.stream))))) ∨
       (fitsSigned s.params.histW v = false ∧
          pullSample s = .next (raiseError .overflow (cursorWord s) s)))) := by
  unfold pullSample decodeNext
  rcases decodeWith_cases (currentBlock s).filter (currentBlock s).range s with
    ⟨hn, h⟩ | ⟨hn, v, hv, ⟨hf, h⟩ | ⟨hf, h⟩⟩
  · exact .inl ⟨hn, by rw [h]⟩
  · exact .inr ⟨hn, v, hv, .inl ⟨hf, by rw [h]⟩⟩
  · exact .inr ⟨hn, v, hv, .inr ⟨hf, by rw [h]⟩⟩

/-- The cursor after a sample stays in its range. -/
theorem advanceCursor_inRange {t : Stream} {n : BitVec 31} (h : t.curBlock.toNat < n.toNat) :
    (advanceCursor t).curBlock.toNat ≤ n.toNat ∧
      ((advanceCursor t).curBlock.toNat = n.toNat → (advanceCursor t).curNibble = 0) := by
  have hn := n.isLt
  unfold advanceCursor
  split
  · refine ⟨?_, fun _ => rfl⟩
    have h1 : (1 : BitVec 31).toNat = 1 := rfl
    simp only [BitVec.toNat_add, h1]
    omega
  · exact ⟨Nat.le_of_lt h, fun he => absurd he (Nat.ne_of_lt h)⟩

/-! ### The scaler -/

/-- The scaled sample lies between the sample and 0 for a level up to 0x800. -/
theorem scaleSample_between (r : ScaleRound) (v : Int) {l : BitVec 12} (hl : l.toNat ≤ 0x800) :
    (0 ≤ scaleSample r v l ∧ scaleSample r v l ≤ v) ∨ (v ≤ scaleSample r v l ∧ scaleSample r v l ≤ 0) := by
  have hl' : (l.toNat : Int) ≤ 2048 := by exact_mod_cast hl
  have hl0 : (0 : Int) ≤ l.toNat := Int.natCast_nonneg _
  rcases le_total 0 v with hv | hv
  · left
    have h1 : 0 ≤ v * l.toNat := mul_nonneg hv hl0
    have h2 : v * l.toNat ≤ v * 2048 := mul_le_mul_of_nonneg_left hl' hv
    cases r with
    | floor => simp only [scaleSample, shiftRight]; omega
    | trunc =>
      simp only [scaleSample, truncDiv]
      rw [Int.tdiv_eq_ediv_of_nonneg h1]
      omega
  · right
    have h1 : v * l.toNat ≤ 0 := mul_nonpos_of_nonpos_of_nonneg hv hl0
    have h2 : v * 2048 ≤ v * l.toNat := mul_le_mul_of_nonpos_left hl' hv
    cases r with
    | floor => simp only [scaleSample, shiftRight]; omega
    | trunc =>
      simp only [scaleSample, truncDiv]
      have h3 : (v * l.toNat).tdiv 2048 = -((-(v * l.toNat)) / 2048) := by
        rw [← Int.tdiv_eq_ediv_of_nonneg (by omega), Int.neg_tdiv, neg_neg]
      omega

end Sys2Proof.Machine
end

