-- ==== Sys2Proof/Laws/Step.lean ====
section
/-! SUPPORT. What a step can do, said once: whose turn it is, and what each turn answers. -/

namespace Sys2Proof.Machine

/-- The outcome of an action. -/
def outcomeOf (a : Action) : Host.Outcome State Fault Refusal :=
  match a with
  | .run i t => exec i t
  | .settled o => o

theorem step_eq (s : State) : step s = outcomeOf (nextAction s) := rfl

theorem nextAction_loading {s : State} (h : s.drv.status = .loading) : nextAction s = loadingAction s := by
  simp [nextAction, h]

theorem nextAction_waiting {s : State} (h : s.drv.status ≠ .loading) : nextAction s = waitingAction s := by
  unfold nextAction
  split <;> simp_all

/-- The host's turn: the step is its action. -/
theorem step_of_hostTurn {s : State} {op : HostOp} {rest : List HostEntry} (h : HostTurn s op rest) :
    step s = outcomeOf (hostAction op (s.withHost rest)) := by
  obtain ⟨n, hh, h0, hw⟩ := h
  by_cases hs : s.drv.status = .loading
  · obtain rfl := h0 hs
    rw [step_eq, nextAction_loading hs]
    simp [loadingAction, hh]
  · rw [step_eq, nextAction_waiting hs]
    simp [waitingAction, hh, hw hs]

/-- The core's turn in LOADING: the step is a LOAD step. -/
theorem step_of_loadTurn {s t : State} (h : LoadTurn s t) : step s = outcomeOf (loadAction t) := by
  obtain ⟨hs, ⟨hh, rfl⟩ | ⟨n, op, rest, hh, rfl⟩⟩ := h
  · rw [step_eq, nextAction_loading hs]
    simp [loadingAction, hh]
  · rw [step_eq, nextAction_loading hs]
    simp [loadingAction, hh]

/-- A held command's turn. -/
theorem step_of_held {s : State} {c : BitVec 2} {cs : List (BitVec 2)} (hs : s.drv.status ≠ .loading)
    (hh : s.held = c :: cs) : step s = exec (decodeCmd c) (s.withHeld cs) := by
  rw [step_eq, nextAction_waiting hs]
  simp [waitingAction, hh, outcomeOf]

/-- Nobody's turn. -/
theorem step_of_waiting {s : State} (hs : s.drv.status ≠ .loading) (hh : s.held = []) (he : s.host = []) :
    step s = .next s := by
  rw [step_eq, nextAction_waiting hs]
  simp [waitingAction, hh, he, outcomeOf]

/-- Whose turn it can be. -/
theorem turn_cases (s : State) :
    (∃ t, LoadTurn s t) ∨ (∃ op rest, HostTurn s op rest) ∨
    (s.drv.status ≠ .loading ∧ ∃ c cs, s.held = c :: cs) ∨
    (s.drv.status ≠ .loading ∧ s.held = [] ∧ s.host = []) := by
  by_cases hs : s.drv.status = .loading
  · rcases hh : s.host with _ | ⟨⟨n, op⟩, rest⟩
    · exact .inl ⟨s, hs, .inl ⟨hh, rfl⟩⟩
    · cases n with
      | zero => exact .inr (.inl ⟨op, rest, 0, hh, fun _ => rfl, fun h => absurd hs h⟩)
      | succ n => exact .inl ⟨_, hs, .inr ⟨n, op, rest, hh, rfl⟩⟩
  · rcases hd : s.held with _ | ⟨c, cs⟩
    · rcases hh : s.host with _ | ⟨⟨n, op⟩, rest⟩
      · exact .inr (.inr (.inr ⟨hs, rfl, rfl⟩))
      · exact .inr (.inl ⟨op, rest, n, hh, fun h => absurd h hs, fun _ => hd⟩)
    · exact .inr (.inr (.inl ⟨hs, c, cs, rfl⟩))

/-- What a register is not: CTRL, BLK_SEL and the configuration registers apart, a write is ignored. -/
theorem writeCfg_readOnly (c : Cfg) (r : HostReg) (v : Word)
    (h : r ≠ .cfgAdsr ∧ r ≠ .cfgGain ∧ r ≠ .cfgEndovr ∧ r ≠ .cfgLoop ∧ r ≠ .cfgRate ∧ r ≠ .cfgOffset ∧
      r ≠ .cfgSrclen) : writeCfg c r v = c := by
  cases r <;> simp_all [writeCfg]

theorem hostRegAt_regOffset (r : HostReg) : hostRegAt (regOffset r) = some r := by
  cases r <;> rfl

/-- The only offsets with a register are those of the table. -/
theorem regOffset_of_hostRegAt {offset : Word} {r : HostReg} (h : hostRegAt offset = some r) :
    regOffset r = offset := by
  unfold hostRegAt at h
  split at h <;> simp only [Option.some.injEq, reduceCtorEq] at h <;> subst h <;>
    (apply BitVec.eq_of_toNat_eq; rename_i hn; exact hn.symm)

/-- A host action changes the driver's registers, the block store, the cursor, the history and the
envelope only through a command or a reset. -/
theorem hostAction_cases (op : HostOp) (s : State) :
    (∃ r, hostAction op s = .settled (.refused r)) ∨
    (∃ v, hostAction op s = .settled (.next (s.withReadData v))) ∨
    (op = .reset ∧ hostAction op s = .settled (.next (resetCore s))) ∨
    (∃ a b, op = .srcWrite a b ∧ s.drv.status ≠ .loading ∧
      hostAction op s = .settled (.next (s.withSrc (s.src.write a.toNat b)))) ∨
    (∃ c, cfgWritable s = true ∧ hostAction op s = .settled (.next (s.withCfg c))) ∨
    (∃ x, hostAction op s = .settled (.next (s.withBlkSel x))) ∨
    hostAction op s = .settled (.next s) ∨
    (∃ w, op = .write 32 0 w ∧ hostAction op s = .run (decodeCtrl w) s) := by
  cases op with
  | read width offset =>
    simp only [hostAction]
    split
    · exact .inl ⟨_, rfl⟩
    · exact .inr (.inl ⟨_, rfl⟩)
  | write width offset v =>
    simp only [hostAction]
    split
    · exact .inl ⟨_, rfl⟩
    · rename_i hw
      have hw32 : width = 32 := by
        unfold accessRefusal at hw
        split at hw
        · simp at hw
        · omega
      unfold writeAction
      split
      · rename_i hr
        have ho : offset = 0 := (regOffset_of_hostRegAt hr).symm
        exact .inr (.inr (.inr (.inr (.inr (.inr (.inr ⟨v, by rw [hw32, ho], rfl⟩))))))
      · rename_i r hr0 hr
        unfold writeReg
        split
        · exact .inr (.inr (.inr (.inr (.inr (.inl ⟨_, rfl⟩)))))
        · split
          · rename_i hc
            exact .inr (.inr (.inr (.inr (.inl ⟨_, hc, rfl⟩))))
          · exact .inr (.inr (.inr (.inr (.inr (.inr (.inl rfl))))))
      · exact .inr (.inr (.inr (.inr (.inr (.inr (.inl rfl))))))
  | reset => exact .inr (.inr (.inl ⟨rfl, rfl⟩))
  | srcWrite a b =>
    simp only [hostAction]
    split
    · exact .inl ⟨_, rfl⟩
    · rename_i hs
      exact .inr (.inr (.inr (.inl ⟨a, b, rfl, hs, rfl⟩)))

/-- A LOAD step: it completes, raises FORMAT_TRUNCATED, or runs a block. -/
theorem loadAction_cases (s : State) :
    (loadAction s = .settled (.next (loadComplete s)) ∧
      (countReached s = true ∨ (sourceExhausted s = true ∧ s.cfg.endovr.present = true))) ∨
    (loadAction s = .settled (.next (raiseError .formatTruncated (ldPtrWord s) s)) ∧ countReached s = false ∧
      sourceExhausted s = true ∧ s.cfg.endovr.present = false) ∨
    (countReached s = false ∧ sourceExhausted s = false ∧ ∃ range filter loop ends nibbles,
      nibbles.length = 16 ∧ loadAction s = .run (.parseBlock range filter loop ends nibbles) s) := by
  unfold loadAction
  cases hc : countReached s with
  | true => exact .inl ⟨rfl, .inl rfl⟩
  | false =>
    cases he : sourceExhausted s with
    | true =>
      cases hp : s.cfg.endovr.present with
      | true => exact .inl ⟨rfl, .inr ⟨rfl, rfl⟩⟩
      | false => exact .inr (.inl ⟨rfl, rfl, rfl, rfl⟩)
    | false =>
      refine .inr (.inr ⟨rfl, rfl, ?_⟩)
      have hlen : s.load.ldPtr.toNat + 9 ≤ s.cfg.srclen.toNat := by
        simpa [sourceExhausted] using he
      simp only [Bool.false_eq_true, if_false, fetchBlock, memReadBytes_eq s _ 9 hlen]
      exact ⟨_, _, _, _, _, unpackNibbles_length _, rfl⟩

end Sys2Proof.Machine
end

