-- ==== Sys2Proof/Tests/Slice0.lean ====
section
/-! SUPPORT. Small tests, their expected values from 95_test_vectors.md or from a rule's example, and
for every obligation with hypotheses a state that meets them. -/

open Sys2Proof Sys2Proof.Machine Sys2Proof.Statements

namespace Sys2Proof.Tests

/-! ## States -/

/-- IDLE after reset, with a store of two blocks. -/
def idle : State := { State.reset with params := { Config.defaultParams with maxBlocks := 2 } }

/-- A block of 16 equal nibbles. -/
def blockOf (filter : BitVec 2) (range code : BitVec 4) : BlockRec :=
  { ends := true, loop := false, filter := filter, range := range, nib := Vector.replicate 16 code }

/-- PLAY at the start of one block, with a history and the default envelope. -/
def playing (b : BlockRec) (p q : Int) : State :=
  { idle with
    drv := { idle.drv with status := .play }
    load := { ldPtr := 9, nblk := 1, blk := [b] }
    stream := { curBlock := 0, curNibble := 0, prev := p, prev2 := q }
    env := { idle.env with level := 0x800 } }

/-- `playing` with `HIST_W = 18`. -/
def narrow (b : BlockRec) (p q : Int) : State :=
  { playing b p q with params := { idle.params with histW := 18 } }

/-- `playing` at the end of its block. -/
def atEnd : State :=
  { playing (blockOf 1 4 7) 50 60 with stream := { curBlock := 1, curNibble := 0, prev := 50, prev2 := 60 } }

/-- `atEnd` with a loop to block 0. -/
def looping : State := { atEnd with cfg := { idle.cfg with loop := { present := true, index := 0 } } }

/-- LOADING at address 0 of `n` source bytes. -/
def loading (n : Word) : State :=
  { idle with drv := { idle.drv with status := .loading }, cfg := { idle.cfg with srclen := n } }

/-- `idle` in another driver state. -/
def inStatus (x : DriverState) : State := { idle with drv := { idle.drv with status := x } }

/-- The error state of a PULL after reset. -/
def failed : State := raiseError .contractPull 0 idle

/-- The host's only coming action is `op`. -/
def acting (op : HostOp) (s : State) : State := s.withHost [{ after := 0, op := op }]

/-- `idle` with an ADSR envelope in a phase at a level and count. -/
def adsrAt (phase : BitVec 2) (ar : BitVec 4) (dr sl : BitVec 3) (sr : BitVec 5) (level cnt : BitVec 12) : State :=
  { idle with env :=
    { kind := .adsr, phase := phase, level := level, cnt := cnt, attackRate := ar, decayRate := dr,
      sustainLevel := sl, sustainRate := sr, gainRate := 0 } }

/-- `idle` with a level and count. -/
def levelAt (level cnt : BitVec 12) : State := { idle with env := { idle.env with level := level, cnt := cnt } }

/-- What `f` reads in the next state of an outcome. -/
def seen {α : Type} (f : State → α) (o : Host.Outcome State Fault Refusal) : Option α :=
  match o with
  | .next s => some (f s)
  | .fault _ => none
  | .refused _ => none

/-- The level, phase and count. -/
def envOf (s : State) : BitVec 12 × BitVec 2 × BitVec 12 := (s.env.level, s.env.phase, s.env.cnt)

/-- The history. -/
def historyOf (s : State) : Int × Int := (s.stream.prev, s.stream.prev2)

/-- `STATUS` and `ERR_INFO`. -/
def errorOf (s : State) : Word × Word := (regRead s 0x04, s.drv.errInfo)

/-! ## WellFormed: the one check refuses an ill-formed term -/

theorem test_wellFormed_block : (Instr.parseBlock 4 3 false true (List.replicate 16 7)).wellFormed = true := by decide
theorem test_illFormed_short : (Instr.parseBlock 4 3 false true (List.replicate 15 7)).wellFormed = false := by decide
theorem test_illFormed_long : (Instr.parseBlock 4 3 false true (List.replicate 17 7)).wellFormed = false := by decide

/-! ## Decoding: words written from R81, R82, R84, R86, R90 and the opcode table -/

/-- B1. -/
theorem test_decode_parseBlock : decode (.block [0x4D, 0xF0, 0, 0, 0, 0, 0, 0, 0x07]) =
    .ok (.parseBlock 4 3 false true [15, 0, 0, 0, 0, 0, 0, 0, 0, 0, 0, 0, 0, 0, 0, 7]) := by decide
theorem test_decode_filter0 : decode (.header 0xC0) = .ok (.filter0 12 false false) := by decide
theorem test_decode_filter1 : decode (.header 0x47) = .ok (.filter1 4 true true) := by decide
theorem test_decode_filter2 : decode (.header 0x88) = .ok (.filter2 8 false false) := by decide
theorem test_decode_filter3 : decode (.header 0x5D) = .ok (.filter3 5 false true) := by decide
theorem test_decode_gainDirect : decode (.gain 0x7F) = .ok (.gainDirect 127) := by decide
theorem test_decode_linearDecrease : decode (.gain 0x9E) = .ok (.gainLinearDecrease 30) := by decide
theorem test_decode_exponentialDecrease : decode (.gain 0xA1) = .ok (.gainExponentialDecrease 1) := by decide
theorem test_decode_linearIncrease : decode (.gain 0xC0) = .ok (.gainLinearIncrease 0) := by decide
theorem test_decode_bentIncrease : decode (.gain 0xFF) = .ok (.gainBentIncrease 31) := by decide
/-- E8, with bit 15 set: DR 0, AR 15, SL 0, SR 0. -/
theorem test_decode_adsr : decode (.adsr 0x8F00) = .ok (.adsr true 0 15 0 0) := by decide
theorem test_decode_attack : decode (.phase 0) = .ok .adsrAttack := by decide
theorem test_decode_decay : decode (.phase 1) = .ok .adsrDecay := by decide
theorem test_decode_sustain : decode (.phase 2) = .ok .adsrSustain := by decide
theorem test_decode_release : decode (.phase 3) = .ok .adsrRelease := by decide
theorem test_decode_envDefault : decode (.config false false) = .ok .envDefault := by decide
theorem test_decode_nop : decode (.ctrl 0xFFFFFFFC) = .ok .nop := by decide
theorem test_decode_start : decode (.ctrl 0x00000001) = .ok .start := by decide
theorem test_decode_pull : decode (.ctrl 0x80000002) = .ok .pull := by decide
theorem test_decode_cmdReserved : decode (.ctrl 0x00000003) = .ok .cmdReserved := by decide

theorem test_reject_truncated : decode (.block [0x4D, 0xF0, 0, 0, 0, 0, 0, 0]) = .error .blockTruncated := by decide
theorem test_reject_overlong : decode (.block (List.replicate 10 0)) = .error .blockOverlong := by decide
theorem test_reject_configured : decode (.config false true) = .error .envelopeConfigured := by decide

/-- The `nib` digits of P2's first block, in a 72-bit table word. -/
theorem test_tableWord_block : decodeTableWord 72 0x98BADCFE70563412C0 =
    some (.parseBlock 12 0 false false [1, 2, 3, 4, 5, 6, 7, 0, 15, 14, 13, 12, 11, 10, 9, 8]) := by decide
theorem test_tableWord_filter1 : decodeTableWord 8 0x04 = some (.filter1 0 false false) := by decide
theorem test_tableWord_gain : decodeTableWord 8 0x80 = some (.gainLinearDecrease 0) := by decide
theorem test_tableWord_outside : decodeTableWord 8 0x100 = none := by decide

/-! ## Arithmetic -/

/-- §2.2, codes 0x9 and 0xF. -/
theorem test_raw : (rawSample (nibbleValue 0x9) 4, rawSample (nibbleValue 0xF) 0, rawSample (nibbleValue 0x7) 15) =
    (-56, -1, 114688) := by decide
/-- The table of R174's values. -/
theorem test_decayed : [0, 1, 2, 0x100, 0x101, 0x201, 0x7e0, 0x7ff].map decayed =
    [0, 0, 1, 0xff, 0xff, 0x1fe, 0x7d8, 0x7f7] := by decide
/-- K3, K4, K6, K8, K10, K11 under FLOOR. -/
theorem test_scale_floor : [scaleSample .floor (-1001) 0x400, scaleSample .floor (-1) 0x400,
    scaleSample .floor (-1) 0x7ff, scaleSample .floor (-7) 0x800, scaleSample .floor 114688 0x7ff,
    scaleSample .floor (-131072) 0x7ff] = [-501, -1, -1, -7, 114632, -131008] := by decide
/-- K3, K4, K5, K9 under TRUNC. -/
theorem test_scale_trunc : [scaleSample .trunc (-1001) 0x400, scaleSample .trunc (-1) 0x400,
    scaleSample .trunc 1 0x7ff, scaleSample .trunc 3 0x2aa] = [-500, 0, 0, 0] := by decide

/-! ## Source bytes -/

theorem test_memory_write_erases : Memory.write [(3, 7)] 3 unlistedByte = [] := by decide
theorem test_memory_sorted : Memory.writeList [(5, 9)] 4 [1, 2, 3] = [(4, 1), (5, 2), (6, 3)] := by decide

/-! ## One step of each instruction -/

/-- B1. -/
theorem test_parseBlock_record :
    seen (fun t => (t.load.nblk, t.load.ldPtr, (readBlk t.load.blk 0).nib.toList, t.drv.status))
      (exec (.parseBlock 4 3 false true [15, 0, 0, 0, 0, 0, 0, 0, 0, 0, 0, 0, 0, 0, 0, 7]) (loading 9)) =
    some (1, 9, [15, 0, 0, 0, 0, 0, 0, 0, 0, 0, 0, 0, 0, 0, 0, 7], .play) := by decide
/-- B11: CAPACITY with `ERR_INFO = 9`. -/
theorem test_parseBlock_capacity :
    seen (fun t => (t.drv.errCode, t.drv.errInfo, t.load.nblk))
      (exec (.parseBlock 0 0 false true (List.replicate 16 1))
        { loading 18 with
          params := { idle.params with maxBlocks := 1 }
          load := { ldPtr := 9, nblk := 1, blk := [blockOf 0 0 1] } }) = some (.capacity, 9, 1) := by decide
/-- F2, with the history of R139. -/
theorem test_filter0 : seen historyOf (exec (.filter0 0 false true) (playing (blockOf 0 0 0xA) 77 (-9))) =
    some (-3, 77) := by decide
/-- H3: the cursor leaves the last block. -/
theorem test_filter0_cursor :
    seen (fun t => (t.stream.curBlock, t.stream.curNibble))
      (exec (.filter0 0 false true)
        { playing (blockOf 0 0 1) 0 0 with stream := { curBlock := 0, curNibble := 15, prev := 0, prev2 := 0 } }) =
    some (1, 0) := by decide
/-- F6. -/
theorem test_filter1 : seen historyOf (exec (.filter1 0 false true) (playing (blockOf 1 0 8) (-100) 0)) =
    some (-97, -100) := by decide
/-- F9. -/
theorem test_filter1_wide : seen historyOf (exec (.filter1 4 false true) (playing (blockOf 1 4 7) (-16384) 0)) =
    some (-15304, -16384) := by decide
/-- F11. -/
theorem test_filter2 : seen historyOf (exec (.filter2 0 false true) (playing (blockOf 2 0 0) (-100) (-50))) =
    some (-143, -100) := by decide
/-- F16 with `HIST_W = 18`: OVERFLOW, and the history stays. -/
theorem test_filter2_overflow :
    seen (fun t => (t.drv.errCode, t.drv.errInfo, historyOf t))
      (exec (.filter2 15 false true) (narrow (blockOf 2 15 7) 114688 114688)) =
    some (.overflow, 0, (114688, 114688)) := by decide
/-- F20. -/
theorem test_filter3 : seen historyOf (exec (.filter3 1 false true) (playing (blockOf 3 1 5) (-5) 5)) =
    some (-8, -5) := by decide
/-- F22. -/
theorem test_filter3_min :
    seen historyOf (exec (.filter3 15 false true) (playing (blockOf 3 15 8) (-131072) (-131072))) =
    some (-260096, -131072) := by decide
/-- E9. -/
theorem test_gainDirect : seen envOf (exec (.gainDirect 0x40) (levelAt 5 5)) = some (0x400, 0, 0) := by decide
/-- E10. -/
theorem test_gainDirect_top : seen envOf (exec (.gainDirect 0x7F) idle) = some (0x7f0, 0, 0) := by decide
/-- E12, Advance 1. -/
theorem test_linearDecrease : seen envOf (exec (.gainLinearDecrease 31) (levelAt 0x7ff 0)) = some (0x7df, 0, 0) := by decide
/-- E13, Advance 1: no tick yet. -/
theorem test_linearDecrease_waits : seen envOf (exec (.gainLinearDecrease 30) (levelAt 0x7ff 0)) =
    some (0x7ff, 0, 1) := by decide
/-- E15, Advance 1. -/
theorem test_exponentialDecrease : seen envOf (exec (.gainExponentialDecrease 31) (levelAt 0x7ff 0)) =
    some (0x7f7, 0, 0) := by decide
/-- R161: rate 0 never ticks. -/
theorem test_exponentialDecrease_rate0 : seen envOf (exec (.gainExponentialDecrease 0) (levelAt 0x7ff 7)) =
    some (0x7ff, 0, 7) := by decide
/-- E16, Advance 1. -/
theorem test_linearIncrease : seen envOf (exec (.gainLinearIncrease 31) (levelAt 0 0)) = some (0x20, 0, 0) := by decide
/-- E16, Advance 64: clamped. -/
theorem test_linearIncrease_clamps : seen envOf (exec (.gainLinearIncrease 31) (levelAt 0x7e0 0)) =
    some (0x7ff, 0, 0) := by decide
/-- S8, below 0x600. -/
theorem test_bentIncrease_below : seen envOf (exec (.gainBentIncrease 31) (levelAt 0x5e0 0)) =
    some (0x600, 0, 0) := by decide
/-- S8, at 0x600. -/
theorem test_bentIncrease_at : seen envOf (exec (.gainBentIncrease 31) (levelAt 0x600 0)) =
    some (0x608, 0, 0) := by decide
/-- E4's word 0x7FC0: AR 15, DR 7, SL 6, SR 0. -/
theorem test_adsr : seen (fun t => t.env) (exec (.adsr false 7 15 6 0) (levelAt 5 5)) =
    some { kind := .adsr, phase := 0, level := 0, cnt := 0, attackRate := 15, decayRate := 7,
           sustainLevel := 6, sustainRate := 0, gainRate := 0 } := by decide
/-- E2: bit 15 is ignored. -/
theorem test_adsr_bit15 : seen id (exec (decodeAdsr 0x8F00) idle) = seen id (exec (decodeAdsr 0x0F00) idle) := by decide
/-- E7. -/
theorem test_attack_fast : seen envOf (exec .adsrAttack (adsrAt 0 15 7 7 31 0x400 0)) = some (0x7ff, 1, 0) := by decide
/-- E3's last Advance: index 29, period 3. -/
theorem test_attack_ends : seen envOf (exec .adsrAttack (adsrAt 0 14 7 7 31 0x7c0 2)) = some (0x7e0, 1, 0) := by decide
/-- E4: the tick of index 30. -/
theorem test_decay : seen envOf (exec .adsrDecay (adsrAt 1 15 7 6 0 0x7ff 1)) = some (0x7f7, 1, 0) := by decide
/-- E1, Advance 3: SUSTAIN without a tick, and the count cleared. -/
theorem test_decay_ends : seen envOf (exec .adsrDecay (adsrAt 1 15 7 7 31 0x7ff 0)) = some (0x7ff, 2, 0) := by decide
/-- E1, Advance 4. -/
theorem test_sustain : seen envOf (exec .adsrSustain (adsrAt 2 15 7 7 31 0x7ff 0)) = some (0x7f7, 2, 0) := by decide
/-- D(1) = 0: RELEASE. -/
theorem test_sustain_ends : seen envOf (exec .adsrSustain (adsrAt 2 15 7 7 31 1 0)) = some (0, 3, 0) := by decide
/-- S7: 0 stays 0. -/
theorem test_release : seen envOf (exec .adsrRelease (adsrAt 3 15 7 7 31 0 5)) = some (0, 3, 5) := by decide
/-- R173: 8 less. -/
theorem test_release_lowers : seen envOf (exec .adsrRelease (adsrAt 3 15 7 7 31 20 0)) = some (12, 3, 0) := by decide
/-- E18. -/
theorem test_envDefault : seen (fun t => (t.env.kind, envOf t)) (exec .envDefault (levelAt 5 5)) =
    some (.gainDirect, 0x800, 0, 0) := by decide
/-- C17. -/
theorem test_nop : seen id (exec .nop (playing (blockOf 0 0 1) 1 2)) = some (playing (blockOf 0 0 1) 1 2) := by decide
/-- C14: held while LOADING. -/
theorem test_nop_held : seen (fun t => t.held) (exec .nop (loading 0)) = some [0] := by decide
/-- R202's example: the default envelope, LOADING. -/
theorem test_start : seen (fun t => (t.drv.status, t.env.kind, t.env.level, t.load.ldPtr)) (exec .start idle) =
    some (.loading, .gainDirect, 0x800, 0) := by decide
/-- C5: the rate check comes first. -/
theorem test_start_rate :
    seen errorOf (exec .start { idle with cfg := { idle.cfg with rate := 0, endovr := { present := true, count := 0 } } }) =
    some (0x24, 0) := by decide
/-- R203's example: `v = 1`, `o = 1`. -/
theorem test_pull : seen (fun t => (t.drv.outSample, t.drv.outValid, t.drv.outCount)) (exec .pull (playing (blockOf 0 0 2) 0 0)) =
    some (1, true, 1) := by decide
/-- H4, with `v = trunc((64 × 56 + 60 × 50) / 64) = 102`. -/
theorem test_pull_loops : seen (fun t => (t.stream, t.drv.outSample)) (exec .pull looping) =
    some ({ curBlock := 0, curNibble := 1, prev := 102, prev2 := 50 }, 102) := by decide
/-- C3. -/
theorem test_cmdReserved : seen errorOf (exec .cmdReserved idle) = some (0x64, 3) := by decide
/-- C12. -/
theorem test_cmdReserved_ignored : seen id (exec .cmdReserved failed) = some failed := by decide

/-! ## Assembly -/

/-- P3's source, with a last `.org` that assembles nothing: CFG_SRCLEN is 13. -/
theorem test_srclen_default :
    srclenDefault [.block 2 8 false false (List.replicate 16 3), .bytes [0x11, 0x22, 0x33, 0x44], .org 100] =
    [.write 32 0x20 13] := by decide
/-- R94: `n=` digits left to right, after a `.org`. -/
theorem test_assembled_bytes :
    assembleCells [.org 5, .block 1 4 true true [7, 7, 7, 7, 7, 7, 7, 7, 8, 8, 8, 8, 8, 8, 8, 9]] 0 =
    [(5, 0x47), (6, 0x77), (7, 0x77), (8, 0x77), (9, 0x77), (10, 0x88), (11, 0x88), (12, 0x88), (13, 0x89)] := by decide

/-! ## Steps -/

/-- C2. -/
theorem test_step_pull_idle : seen errorOf (step (acting (.write 32 0 2) idle)) = some (0x54, 0) := by decide
/-- C1. -/
theorem test_step_read_rate : seen (fun t => t.readData) (step (acting (.read 32 0x18) State.reset)) = some 32000 := by decide
/-- B12: FORMAT_TRUNCATED with `ERR_INFO = 20`. -/
theorem test_step_truncated :
    seen (fun t => (t.drv.errCode, t.drv.errInfo)) (step { loading 18 with load := { ldPtr := 20, nblk := 0, blk := [] } }) =
    some (.formatTruncated, 20) := by decide
/-- B13: a START from reset, then the LOAD step. -/
theorem test_step_reset_start : seen (fun t => t.drv.status) (step (State.reset.withFetchWord 8 1)) = some .loading := by decide
/-- B1's block, placed where the LOAD step reads it. -/
theorem test_step_placed_block : seen (fun t => (t.load.nblk, (readBlk t.load.blk 0).nib.toList))
      (step (idle.withFetchWord 72 0x07000000000000F04D)) =
    some (1, [15, 0, 0, 0, 0, 0, 0, 0, 0, 0, 0, 0, 0, 0, 0, 7]) := by decide
/-- R165 through START. -/
theorem test_step_placed_gain : seen envOf (step (placeInput (.gain 0x40) State.reset)) = some (0x400, 0, 0) := by decide

/-! ## Witnesses: a state and operands that meet an obligation's hypotheses together -/

theorem hostTurn_acting (op : HostOp) (s : State) (h : s.held = []) : HostTurn (acting op s) op [] :=
  ⟨0, rfl, fun _ => rfl, fun _ => h⟩

theorem loadTurn_self (s : State) (hs : s.drv.status = .loading) (hh : s.host = []) : LoadTurn s s :=
  ⟨hs, .inl ⟨hh, rfl⟩⟩

theorem witness_DecodeUndoesEncode : (Instr.parseBlock 15 3 true true (List.replicate 16 8)).wellFormed = true := by decide

theorem witness_EncodeUndoesDecode : decode (.adsr 0xFFFF) = .ok (.adsr true 7 15 7 31) ∧
    ∀ w : Word, Input.adsr 0xFFFF ≠ .ctrl w := ⟨by decide, by simp⟩

theorem witness_ResetIsTakenInEveryState :
    HostTurn (acting .reset (loading 9)) .reset [] ∧ HostTurn (acting .reset failed) .reset [] :=
  ⟨hostTurn_acting _ _ rfl, hostTurn_acting _ _ rfl⟩

theorem witness_ReadsChangeNothing : (0x5C : Word).toNat % 4 = 0 ∧
    HostTurn (acting (.read 32 0x5C) idle) (.read 32 0x5C) [] := ⟨by decide, hostTurn_acting _ _ rfl⟩

theorem witness_UndefinedAccesses_width :
    (16 ≠ 32 ∧ HostTurn (acting (.read 16 0) idle) (.read 16 0) []) ∧
    (64 ≠ 32 ∧ HostTurn (acting (.write 64 0 1) idle) (.write 64 0 1) []) :=
  ⟨⟨by decide, hostTurn_acting _ _ rfl⟩, by decide, hostTurn_acting _ _ rfl⟩

/-- Wrong in width and in alignment. -/
theorem witness_UndefinedAccesses_both :
    16 ≠ 32 ∧ (0x02 : Word).toNat % 4 ≠ 0 ∧ HostTurn (acting (.read 16 0x02) idle) (.read 16 0x02) [] :=
  ⟨by decide, by decide, hostTurn_acting _ _ rfl⟩

theorem witness_UndefinedAccesses_misaligned :
    ((0x5E : Word).toNat % 4 ≠ 0 ∧ HostTurn (acting (.read 32 0x5E) idle) (.read 32 0x5E) []) ∧
    ((0x01 : Word).toNat % 4 ≠ 0 ∧ HostTurn (acting (.write 32 0x01 1) idle) (.write 32 0x01 1) []) :=
  ⟨⟨by decide, hostTurn_acting _ _ rfl⟩, by decide, hostTurn_acting _ _ rfl⟩

/-- 0x60 is the first offset past the table. -/
theorem witness_UndefinedAccesses_unlisted :
    ((0x60 : Word).toNat % 4 = 0 ∧ ∀ r : HostReg, regOffset r ≠ 0x60) ∧
    HostTurn (acting (.read 32 0x60) idle) (.read 32 0x60) [] ∧
    HostTurn (acting (.write 32 0x60 1) idle) (.write 32 0x60 1) [] :=
  ⟨⟨by decide, fun r => by cases r <;> decide⟩, hostTurn_acting _ _ rfl, hostTurn_acting _ _ rfl⟩

theorem witness_UndefinedAccesses_readOnly :
    ¬ IsCfg .blkNibLo ∧ HostReg.blkNibLo ≠ .ctrl ∧ HostReg.blkNibLo ≠ .blkSel ∧
    HostTurn (acting (.write 32 (regOffset .blkNibLo) 1) idle) (.write 32 (regOffset .blkNibLo) 1) [] :=
  ⟨by decide, by decide, by decide, hostTurn_acting _ _ rfl⟩

theorem witness_ConfigWritesInIdleAndDoneOnly_accepted :
    IsCfg .cfgGain ∧ (inStatus .done).drv.status = .done ∧
    HostTurn (acting (.write 32 (regOffset .cfgGain) 0x80000040) (inStatus .done))
      (.write 32 (regOffset .cfgGain) 0x80000040) [] := ⟨by decide, by decide, hostTurn_acting _ _ rfl⟩

theorem witness_ConfigWritesInIdleAndDoneOnly_ignored :
    IsCfg .cfgSrclen ∧ ¬ ((loading 9).drv.status = .idle ∨ (loading 9).drv.status = .done) ∧
    HostTurn (acting (.write 32 (regOffset .cfgSrclen) 1) (loading 9)) (.write 32 (regOffset .cfgSrclen) 1) [] :=
  ⟨by decide, by decide, hostTurn_acting _ _ rfl⟩

theorem witness_BlockSelectAndClosedWindow_write :
    HostTurn (acting (.write 32 0x50 0xFFFFFFFF) failed) (.write 32 0x50 0xFFFFFFFF) [] := hostTurn_acting _ _ rfl

/-- `BLK_SEL = NBLK = 1`. -/
theorem witness_BlockSelectAndClosedWindow_closed :
    (atEnd.withBlkSel 1).load.nblk.toNat ≤ (atEnd.withBlkSel 1).blkSel.toNat := by decide

theorem witness_WindowShowsTheParsedBytes :
    (∃ i, decode (.block [0x4D, 0xF0, 0, 0, 0, 0, 0, 0, 0x07]) = .ok i) ∧ (loading 9).params.wf ∧
    (loading 9).load.nblk.toNat < (loading 9).params.maxBlocks := ⟨⟨_, rfl⟩, by decide, by decide⟩

/-- The override count 0 < 1 = `NBLK` is met at 1. -/
def counted : State :=
  { loading 18 with
    cfg := { (loading 18).cfg with endovr := { present := true, count := 1 } }
    load := { ldPtr := 9, nblk := 1, blk := [blockOf 0 0 1] } }

theorem witness_LoadStepStopsBeforeParsing_count :
    LoadTurn counted counted ∧ counted.cfg.endovr.present = true ∧ counted.load.nblk = counted.cfg.endovr.count :=
  ⟨loadTurn_self _ rfl rfl, by decide, by decide⟩

/-- One byte short of a block. -/
theorem witness_LoadStepStopsBeforeParsing_exhausted :
    LoadTurn (loading 8) (loading 8) ∧
    ¬ ((loading 8).cfg.endovr.present = true ∧ (loading 8).load.nblk = (loading 8).cfg.endovr.count) ∧
    (loading 8).cfg.srclen.toNat < (loading 8).load.ldPtr.toNat + 9 := ⟨loadTurn_self _ rfl rfl, by decide, by decide⟩

/-- The last whole block of the source. -/
theorem witness_LoadStepParsesTheBlock :
    LoadTurn (loading 9) (loading 9) ∧
    ¬ ((loading 9).cfg.endovr.present = true ∧ (loading 9).load.nblk = (loading 9).cfg.endovr.count) ∧
    (loading 9).load.ldPtr.toNat + 9 ≤ (loading 9).cfg.srclen.toNat ∧
    (loading 9).load.nblk.toNat ≠ (loading 9).params.maxBlocks :=
  ⟨loadTurn_self _ rfl rfl, by decide, by decide, by decide⟩

/-- B11. -/
def full : State :=
  { loading 18 with
    params := { idle.params with maxBlocks := 1 }
    load := { ldPtr := 9, nblk := 1, blk := [blockOf 0 0 1] } }

theorem witness_FullStoreRaisesCapacity :
    LoadTurn full full ∧ ¬ (full.cfg.endovr.present = true ∧ full.load.nblk = full.cfg.endovr.count) ∧
    full.load.ldPtr.toNat + 9 ≤ full.cfg.srclen.toNat ∧ full.load.nblk.toNat = full.params.maxBlocks :=
  ⟨loadTurn_self _ rfl rfl, by decide, by decide, by decide⟩

theorem witness_ParseBlockCompletes :
    (List.replicate 16 (8 : BitVec 4)).length = 16 ∧ (loading 9).load.nblk.toNat ≠ (loading 9).params.maxBlocks := by decide

theorem witness_LoadReachesPlayOrError : (loading 18).Inv ∧ (loading 18).drv.status = .loading ∧ (loading 18).host = [] := by
  decide

theorem witness_FilterZeroResult :
    (playing (blockOf 0 15 8) 0 0).params.wf ∧
    (playing (blockOf 0 15 8) 0 0).stream.curBlock.toNat < (playing (blockOf 0 15 8) 0 0).load.nblk.toNat := by decide

/-- F16 and F22 at `HIST_W = 32`. -/
theorem witness_FilterWithHistoryResults :
    let s := playing (blockOf 2 15 7) 114688 114688
    s.stream.curBlock.toNat < s.load.nblk.toNat ∧
    Fits s.params.histW (Int.tdiv (64 * rawAtCursor s 15 + 60 * s.stream.prev) 64) ∧
    Fits s.params.histW (Int.tdiv (64 * rawAtCursor s 15 + 122 * s.stream.prev - 60 * s.stream.prev2) 64) ∧
    Fits s.params.histW (Int.tdiv (64 * rawAtCursor s 15 + 115 * s.stream.prev - 52 * s.stream.prev2) 64) := by decide

/-- F16 and F22 at `HIST_W = 18`. -/
theorem witness_FilterOverflowRaises :
    let s := narrow (blockOf 2 15 7) 114688 114688
    s.stream.curBlock.toNat < s.load.nblk.toNat ∧
    ¬ Fits s.params.histW (Int.tdiv (64 * rawAtCursor s 15 + 60 * s.stream.prev) 64) ∧
    ¬ Fits s.params.histW (Int.tdiv (64 * rawAtCursor s 15 + 122 * s.stream.prev - 60 * s.stream.prev2) 64) ∧
    ¬ Fits s.params.histW (Int.tdiv (64 * rawAtCursor s 15 + 115 * s.stream.prev - 52 * s.stream.prev2) 64) := by decide

/-- The same sample at a PULL. -/
theorem witness_FilterOverflowRaises_pull :
    let s := narrow (blockOf 2 15 7) 114688 114688
    s.drv.status = .play ∧ s.stream.curBlock.toNat < s.load.nblk.toNat ∧
    ¬ Fits s.params.histW (filterValue (currentBlock s).filter (rawAtCursor s (currentBlock s).range) s.stream.prev
      s.stream.prev2) := by decide

theorem witness_ExhaustedStreamFaults : atEnd.load.nblk.toNat ≤ atEnd.stream.curBlock.toNat := by decide

/-- The ends of the history's range. -/
theorem witness_AccumulatorHoldsTheSum : idle.params.wf ∧ Fits 32 (-2147483648) ∧ Fits 32 2147483647 := by decide

theorem witness_LoopSeamContinuity :
    looping.Inv ∧ looping.drv.status = .play ∧ looping.cfg.loop.present = true ∧ looping.env.level ≠ 0 ∧
    looping.stream.curBlock = looping.load.nblk ∧ 1 + (1 - 0) < 2 ^ 31 ∧ 16 ≤ 16 * (1 - 0) := by decide

theorem witness_TicksEveryPeriod :
    ratePeriod Config.defaultRateTable 0 = 0 ∧
    (1 ≤ ratePeriod Config.defaultRateTable 31 ∧ ratePeriod Config.defaultRateTable 31 ≤ 2048) ∧
    (1 ≤ ratePeriod Config.defaultRateTable 1 ∧ ratePeriod Config.defaultRateTable 1 ≤ 2048) := by decide

/-- `AR = 14`: index 29, period 3. -/
theorem witness_AttackTakesSixtyThreeTicks :
    let s := adsrAt 0 14 7 7 31 0 0
    s.params.wf ∧ s.env.attackRate ≠ 15 ∧ s.env.phase = 0 ∧ s.env.level = 0 ∧ s.env.cnt = 0 ∧
    189 ≤ 63 * ratePeriod s.params.rateTable (BitVec.ofNat 5 (s.env.attackRate.toNat * 2 + 1)) := by decide

theorem witness_DecayStepLowers : (1 : Int) ≤ 0x7ff ∧ (0x7ff : Int) ≤ 0x7ff := by decide

theorem witness_EnvelopeAdvancesOncePerSample : ∃ t, exec .pull looping = .next t := ⟨_, rfl⟩

/-- `idle` with an ADSR configuration. -/
def configured : State := { idle with cfg := { idle.cfg with adsr := { present := true, value := 0x7FFF } } }

theorem witness_EnvelopeKindChangesAtStartOnly :
    (acting (.write 32 0 1) configured).Inv ∧
    ∃ t, step (acting (.write 32 0 1) configured) = .next t ∧ t.env.kind ≠ (acting (.write 32 0 1) configured).env.kind :=
  ⟨by decide, _, rfl, by decide⟩

theorem witness_CommandsInLoadingAndError : (loading 9).drv.status = .loading ∧ failed.drv.status = .error := by decide

theorem witness_NopChangesNothing : failed.drv.status ≠ .loading ∧ idle.drv.status ≠ .loading := by decide

theorem witness_ReservedCommandRaises : idle.drv.status = .idle ∧ looping.drv.status = .play ∧
    (inStatus .done).drv.status = .done := by decide

theorem witness_StartChecksConfiguration_rate :
    ({ idle with cfg := { idle.cfg with rate := 0 } } : State).drv.status = .idle ∧
    ({ idle with cfg := { idle.cfg with rate := 0 } } : State).cfg.rate = 0 := by decide

theorem witness_StartChecksConfiguration_count :
    let s : State := { idle with cfg := { idle.cfg with endovr := { present := true, count := 0 } } }
    s.drv.status = .idle ∧ s.cfg.rate ≠ 0 ∧ s.cfg.endovr.present = true ∧ s.cfg.endovr.count = 0 := by decide

/-- A count of 0 that is not present is no error. -/
theorem witness_StartBeginsASession :
    idle.drv.status = .idle ∧ idle.cfg.rate ≠ 0 ∧ ¬ (idle.cfg.endovr.present = true ∧ idle.cfg.endovr.count = 0) := by decide

theorem witness_PullEmitsTheScaledSample :
    let s := playing (blockOf 1 4 7) (-16384) 0
    s.drv.status = .play ∧ s.stream.curBlock.toNat < s.load.nblk.toNat ∧
    Fits s.params.histW (filterValue (currentBlock s).filter (rawAtCursor s (currentBlock s).range) s.stream.prev
      s.stream.prev2) := by decide

theorem witness_PullLoopsKeepingHistory :
    looping.drv.status = .play ∧ looping.load.nblk.toNat ≤ looping.stream.curBlock.toNat ∧
    looping.cfg.loop.present = true ∧ looping.env.level ≠ 0 ∧ looping.cfg.loop.index.toNat < looping.load.nblk.toNat := by decide

/-- H5: a loop at level 0. -/
theorem witness_PullEndsTheSession :
    let s : State := { looping with env := { looping.env with level := 0 } }
    s.drv.status = .play ∧ s.load.nblk.toNat ≤ s.stream.curBlock.toNat ∧
    ¬ (s.cfg.loop.present = true ∧ s.env.level ≠ 0) := by decide

theorem witness_PullOutsideASessionRaises : idle.drv.status = .idle ∧ (inStatus .done).drv.status = .done := by decide

theorem witness_ScaledSampleBetweenZeroAndSample : (0x800 : BitVec 12).toNat ≤ 0x800 ∧ (0 : BitVec 12).toNat ≤ 0x800 ∧
    (0 : Int) ≤ 0 ∧ (-1 : Int) < 0 := by decide

theorem witness_NonLoopingSessionLength :
    (playing (blockOf 0 4 7) 0 0).Inv ∧ (playing (blockOf 0 4 7) 0 0).drv.status = .play ∧
    (playing (blockOf 0 4 7) 0 0).cfg.loop.present = false := by decide

theorem witness_ErrorIsSticky :
    (acting (.write 32 0 1) failed).drv.status = .error ∧ (∃ t, step (acting (.write 32 0 1) failed) = .next t) ∧
    ∀ rest, ¬ HostTurn (acting (.write 32 0 1) failed) .reset rest :=
  ⟨by decide, ⟨_, rfl⟩, fun _ h => by obtain ⟨n, h, _⟩ := h; cases h⟩

theorem witness_OnlyTheHostWritesSource :
    Memory.wf (acting (.srcWrite 0xFFFFFFFF 7) idle).src = true ∧
    ∃ t, step (acting (.srcWrite 0xFFFFFFFF 7) idle) = .next t := ⟨by decide, _, rfl⟩

theorem witness_OnlyTheHostWritesSource_taken :
    Memory.wf (acting (.srcWrite 0 0) looping).src = true ∧ (acting (.srcWrite 0 0) looping).drv.status ≠ .loading ∧
    HostTurn (acting (.srcWrite 0 0) looping) (.srcWrite 0 0) [] := ⟨by decide, by decide, hostTurn_acting _ _ rfl⟩

theorem witness_OnlyTheHostWritesSource_refused :
    Memory.wf (acting (.srcWrite 9 1) (loading 9)).src = true ∧ (acting (.srcWrite 9 1) (loading 9)).drv.status = .loading ∧
    HostTurn (acting (.srcWrite 9 1) (loading 9)) (.srcWrite 9 1) [] := ⟨by decide, by decide, hostTurn_acting _ _ rfl⟩

/-- PLAY with a loop outside the store, which the invariant rules out. -/
theorem witness_BlockFetchNeverFaults :
    step (acting (.write 32 0 2) { looping with load := { looping.load with nblk := 0 } }) = .fault .streamExhausted := rfl

theorem witness_NoFaultFromInvariant : looping.Inv := by decide

theorem witness_StepKeepsInvariant :
    (acting (.write 32 0 2) looping).Inv ∧ ∃ t, step (acting (.write 32 0 2) looping) = .next t := ⟨by decide, _, rfl⟩

theorem witness_StepRunsTheCommand_written :
    HostTurn (acting (.write 32 0x00 0xFFFFFFFE) looping) (.write 32 0x00 0xFFFFFFFE) [] ∧
    decode (.ctrl 0xFFFFFFFE) = .ok .pull := ⟨hostTurn_acting _ _ rfl, by decide⟩

theorem witness_StepRunsTheCommand_held :
    (looping.withHeld [2, 1]).drv.status ≠ .loading ∧ (looping.withHeld [2, 1]).held = 2 :: [1] ∧
    decode (.ctrl ((2 : BitVec 2).setWidth 32)) = .ok .pull := by decide

theorem witness_StepRunsTheFetchedBlock :
    LoadTurn (loading 9) (loading 9) ∧
    ¬ ((loading 9).cfg.endovr.present = true ∧ (loading 9).load.nblk = (loading 9).cfg.endovr.count) ∧
    (loading 9).load.ldPtr.toNat + 9 ≤ (loading 9).cfg.srclen.toNat ∧
    ∃ i, decode (.block ((List.range 9).map fun k => (loading 9).src.read ((loading 9).load.ldPtr.toNat + k))) = .ok i :=
  ⟨loadTurn_self _ rfl rfl, by decide, by decide, _, rfl⟩

/-- A session with a Gain-Custom envelope. -/
def fading : State :=
  { playing (blockOf 1 4 7) 50 60 with
    env := { idle.env with kind := .gainCustom, phase := 0, gainRate := 31, level := 0x7ff } }

theorem witness_PullRunsFilterAndEnvelopeOperations_advancing :
    fading.drv.status = .play ∧ fading.stream.curBlock.toNat < fading.load.nblk.toNat ∧
    decode (.header (recordHeader (currentBlock fading))) = .ok (.filter1 4 false true) ∧
    (∃ t, exec (.filter1 4 false true) fading = .next t ∧ t.drv.status = .play) ∧
    envelopeInput fading.env = some (.gain 0x9F) ∧ decode (.gain 0x9F) = .ok (.gainLinearDecrease 31) :=
  ⟨by decide, by decide, by decide, ⟨_, rfl, by decide⟩, by decide, by decide⟩

theorem witness_PullRunsFilterAndEnvelopeOperations_direct :
    let s := playing (blockOf 3 5 1) 50 60
    s.drv.status = .play ∧ s.stream.curBlock.toNat < s.load.nblk.toNat ∧
    decode (.header (recordHeader (currentBlock s))) = .ok (.filter3 5 false true) ∧
    (∃ t, exec (.filter3 5 false true) s = .next t ∧ t.drv.status = .play) ∧ envelopeInput s.env = none :=
  ⟨by decide, by decide, by decide, ⟨_, rfl, by decide⟩, by decide⟩

theorem witness_StartRunsTheSelectedConstruction :
    configured.drv.status = .idle ∧ (∃ t, exec .start configured = .next t ∧ t.drv.status = .loading) ∧
    decode (configInput configured.cfg) = .ok (.adsr false 7 15 7 31) := ⟨by decide, ⟨_, rfl, by decide⟩, by decide⟩

/-- `idle` with a Gain-Custom configuration of mode 3. -/
def bending : State := { idle with cfg := { idle.cfg with gain := { present := true, value := 0xFF } } }

theorem witness_StartRunsTheSelectedConstruction_custom :
    bending.drv.status = .idle ∧ (∃ t, exec .start bending = .next t ∧ t.drv.status = .loading) ∧
    decode (configInput bending.cfg) = .ok (.gainBentIncrease 31) := ⟨by decide, ⟨_, rfl, by decide⟩, by decide⟩

/-- The ends of the 32-bit range. -/
theorem witness_RegistersReadTheirState :
    let s := playing (blockOf 0 0 0) (-2147483648) 2147483647
    Fits 32 s.stream.prev ∧ Fits 32 s.stream.prev2 ∧ Fits 32 s.drv.outSample := by decide

theorem witness_WaitingCoreKeepsItsState : looping.drv.status ≠ .loading ∧ looping.held = [] ∧ looping.host = [] := by decide

end Sys2Proof.Tests
end

/-! # 00_scope.md: the width of the accumulator, who writes the source bytes, reset and waiting -/

namespace Sys2Proof.Proofs.Scope

open Sys2Proof.Machine Sys2Proof.Statements

/-! ## The accumulator -/

/-- The corners of R132's range: the lowest raw value is `-8 × 2^15 / 2`, the highest `7 × 2^15 / 2`. -/
theorem rawSample_bounds (c range : BitVec 4) :
    -131072 ≤ rawSample (nibbleValue c) range ∧ rawSample (nibbleValue c) range ≤ 114688 := by
  revert c range
  decide

/-- The least history width of R6 already holds every raw value. -/
theorem rawSample_fits {p : Params} (h : p.wf) (c range : BitVec 4) :
    Fits p.histW (rawSample (nibbleValue c) range) := by
  obtain ⟨hlo, hhi⟩ := rawSample_bounds c range
  obtain ⟨hw, -⟩ := h
  have hpow : (2 : Int) ^ 17 ≤ 2 ^ (p.histW - 1) := pow_le_pow_right₀ (by decide) (by omega)
  constructor <;> omega

/-- The 8 bits that R6 adds to the history width scale the range by 256. -/
theorem two_pow_accW {p : Params} (h : p.wf) : (2 : Int) ^ (p.accW - 1) = 256 * 2 ^ (p.histW - 1) := by
  obtain ⟨hw, -⟩ := h
  have hexp : p.accW - 1 = 8 + (p.histW - 1) := by unfold Params.accW; omega
  rw [hexp, pow_add]
  rfl

/-- Settles O23: the coefficients of a sum add up to at most 246 in absolute value, below the 256 that
8 more bits give. -/
theorem accumulatorHoldsTheSum : Obligations.AccumulatorHoldsTheSum := by
  intro p c range a b hp ha hb
  have hraw := rawSample_fits hp c range
  simp only [Fits, two_pow_accW hp, filterSum1, filterSum2, filterSum3] at ha hb hraw ⊢
  generalize rawSample (nibbleValue c) range = raw at *
  generalize (2 : Int) ^ (p.histW - 1) = bound at *
  refine ⟨⟨?_, ?_⟩, ⟨?_, ?_⟩, ?_, ?_⟩ <;> omega

/-! ## The parameters and the source bytes -/

/-- An outcome that answers no state but one with the parameters and the source bytes of `s`. -/
def KeepsSource (s : State) (o : Host.Outcome State Fault Refusal) : Prop :=
  ∀ t, o = .next t → t.params = s.params ∧ t.src = s.src

@[simp] theorem keepsSource_next {s t : State} :
    KeepsSource s (.next t) ↔ t.params = s.params ∧ t.src = s.src := by
  simp [KeepsSource]

@[simp] theorem keepsSource_fault (s : State) (f : Fault) : KeepsSource s (.fault f) := by
  simp [KeepsSource]

@[simp] theorem keepsSource_refused (s : State) (r : Refusal) : KeepsSource s (.refused r) := by
  simp [KeepsSource]

/-! ### The Block Decoder -/

@[simp] theorem loadComplete_params (s : State) : (loadComplete s).params = s.params := by
  unfold loadComplete
  split <;> rfl

@[simp] theorem loadComplete_src (s : State) : (loadComplete s).src = s.src := by
  unfold loadComplete
  split <;> rfl

theorem execParseBlock_keepsSource (range : BitVec 4) (filter : BitVec 2) (loop ends : Bool)
    (nibbles : List (BitVec 4)) (s : State) :
    KeepsSource s (execParseBlock range filter loop ends nibbles s) := by
  unfold execParseBlock
  split
  · simp
  · split <;> simp [keepBlock]

/-! ### The sample stream -/

theorem decodeOutcome_keepsSource (filter : BitVec 2) (range : BitVec 4) (s : State) :
    KeepsSource s (decodeOutcome (decodeWith filter range s)) := by
  rcases decodeWith_cases filter range s with ⟨-, h⟩ | ⟨-, v, -, ⟨-, h⟩ | ⟨-, h⟩⟩ <;>
    simp [h, decodeOutcome]

/-! ### The commands -/

@[simp] theorem startSession_params (s : State) : (startSession s).params = s.params := by
  unfold startSession
  split
  · rfl
  · split <;> rfl

@[simp] theorem startSession_src (s : State) : (startSession s).src = s.src := by
  unfold startSession
  split
  · rfl
  · split <;> rfl

theorem pullSample_keepsSource (s : State) : KeepsSource s (pullSample s) := by
  rcases pullSample_cases s with ⟨-, h⟩ | ⟨-, v, -, ⟨-, h⟩ | ⟨-, h⟩⟩ <;>
    simp [h, finishPull, emitSample]

theorem pullStep_keepsSource (s : State) : KeepsSource s (pullStep s) := by
  unfold pullStep
  split
  · exact pullSample_keepsSource s
  · split
    · exact pullSample_keepsSource (loopTo s.cfg.loop.index s)
    · simp [endSession]

theorem execNop_keepsSource (s : State) : KeepsSource s (execNop s) := by
  unfold execNop
  split <;> simp [holdCommand]

theorem execStart_keepsSource (s : State) : KeepsSource s (execStart s) := by
  unfold execStart
  split <;> simp [holdCommand]

theorem execPull_keepsSource (s : State) : KeepsSource s (execPull s) := by
  unfold execPull
  split <;> simp [holdCommand, pullStep_keepsSource]

theorem execCmdReserved_keepsSource (s : State) : KeepsSource s (execCmdReserved s) := by
  unfold execCmdReserved
  split <;> simp [holdCommand]

/-! ### Every instruction and every step -/

/-- No instruction writes a parameter (R6) or a source byte (20_memory.md R60). -/
theorem exec_keepsSource (i : Instr) (s : State) : KeepsSource s (exec i s) := by
  cases i with
  | parseBlock range filter loop ends nibbles => exact execParseBlock_keepsSource range filter loop ends nibbles s
  | filter0 range => exact decodeOutcome_keepsSource 0 range s
  | filter1 range => exact decodeOutcome_keepsSource 1 range s
  | filter2 range => exact decodeOutcome_keepsSource 2 range s
  | filter3 range => exact decodeOutcome_keepsSource 3 range s
  | nop => exact execNop_keepsSource s
  | start => exact execStart_keepsSource s
  | pull => exact execPull_keepsSource s
  | cmdReserved => exact execCmdReserved_keepsSource s
  | gainDirect | gainLinearDecrease | gainExponentialDecrease | gainLinearIncrease | gainBentIncrease
  | adsr | adsrAttack | adsrDecay | adsrSustain | adsrRelease | envDefault =>
    exact keepsSource_next.2 ⟨rfl, rfl⟩

theorem loadAction_keepsSource (s : State) : KeepsSource s (outcomeOf (loadAction s)) := by
  rcases loadAction_cases s with ⟨h, -⟩ | ⟨h, -⟩ | ⟨-, -, range, filter, loop, ends, nibbles, -, h⟩
  · simp [h, outcomeOf]
  · simp [h, outcomeOf]
  · simpa [h, outcomeOf] using exec_keepsSource _ s

/-- Of the host's actions only the write of a source byte, outside LOADING, writes SRC. -/
theorem hostAction_source (op : HostOp) (s : State) :
    KeepsSource s (outcomeOf (hostAction op s)) ∨ ∃ a b, op = .srcWrite a b ∧ s.drv.status ≠ .loading := by
  rcases hostAction_cases op s with
    ⟨r, h⟩ | ⟨v, h⟩ | ⟨-, h⟩ | ⟨a, b, hop, hs, -⟩ | ⟨c, -, h⟩ | ⟨x, h⟩ | h | ⟨w, -, h⟩
  · exact .inl (by simp [h, outcomeOf])
  · exact .inl (by simp [h, outcomeOf])
  · exact .inl (by simp [h, outcomeOf, resetCore])
  · exact .inr ⟨a, b, hop, hs⟩
  · exact .inl (by simp [h, outcomeOf])
  · exact .inl (by simp [h, outcomeOf])
  · exact .inl (by simp [h, outcomeOf])
  · exact .inl (by simpa [h, outcomeOf] using exec_keepsSource (decodeCtrl w) s)

/-- A step keeps the parameters and the source bytes, unless it is the host's write of a source byte. -/
theorem step_source (s : State) :
    KeepsSource s (step s) ∨
    ∃ a b rest, HostTurn s (.srcWrite a b) rest ∧ s.drv.status ≠ .loading := by
  rcases turn_cases s with ⟨t, ht⟩ | ⟨op, rest, ht⟩ | ⟨hs, c, cs, hc⟩ | ⟨hs, hh, he⟩
  · left
    rw [step_of_loadTurn ht]
    obtain ⟨-, ⟨-, rfl⟩ | ⟨n, op, rest, -, rfl⟩⟩ := ht
    · exact loadAction_keepsSource t
    · exact loadAction_keepsSource (s.withHost ({ after := n, op := op } :: rest))
  · rcases hostAction_source op (s.withHost rest) with h | ⟨a, b, rfl, hs⟩
    · left
      rw [step_of_hostTurn ht]
      exact h
    · exact .inr ⟨a, b, rest, ht, hs⟩
  · left
    rw [step_of_held hs hc]
    exact exec_keepsSource (decodeCmd c) (s.withHeld cs)
  · left
    simp [step_of_waiting hs hh he]

/-- The host's write of a source byte outside LOADING (20_memory.md R72). -/
theorem step_of_srcWrite {s : State} {a : BitVec srcAddrW} {b : Byte} {rest : List HostEntry}
    (h : HostTurn s (.srcWrite a b) rest) (hs : s.drv.status ≠ .loading) :
    step s = .next { s with src := s.src.write a.toNat b, host := rest } := by
  rw [step_of_hostTurn h, hostAction, State.withHost_drv, if_neg hs]
  rfl

/-- The same write while LOADING (log 15). -/
theorem step_of_srcWrite_loading {s : State} {a : BitVec srcAddrW} {b : Byte} {rest : List HostEntry}
    (h : HostTurn s (.srcWrite a b) rest) (hs : s.drv.status = .loading) :
    step s = .refused .sourceWriteWhileLoading := by
  rw [step_of_hostTurn h, hostAction, State.withHost_drv, if_pos hs]
  rfl

/-- Settles O49: `step_source` leaves the host's write as the one step that changes SRC, and that write
is a memory write in canonical form. -/
theorem onlyTheHostWritesSource : Obligations.OnlyTheHostWritesSource := by
  intro s hwf
  refine ⟨fun t ht => ?_, fun a b rest hturn => ⟨fun hs => ?_, step_of_srcWrite_loading hturn⟩⟩
  · rcases step_source s with hkeep | ⟨a, b, rest, hturn, hs⟩
    · obtain ⟨hparams, hsrc⟩ := hkeep t ht
      exact ⟨hparams, .inl hsrc⟩
    · rw [step_of_srcWrite hturn hs] at ht
      cases ht
      exact ⟨rfl, .inr ⟨a, b, rest, hturn, hs, Memory.read_write_same hwf a.toNat b,
        fun x hx => Memory.read_write_other s.src b hx⟩⟩
  · exact ⟨s.src.write a.toNat b, step_of_srcWrite hturn hs, Memory.wf_write hwf a.isLt b,
      Memory.read_write_same hwf a.toNat b, fun x hx => Memory.read_write_other s.src b hx⟩

/-! ## Reset and waiting -/

/-- The parameters at reset lie in their ranges, whatever the free `MAX_BLOCKS` is (log 2). -/
theorem defaultParams_wf : Config.defaultParams.wf := by
  have hmax := Config.maxBlocksLessOne.isLt
  refine ⟨by decide, ?_, ?_, by decide, by decide, by decide⟩ <;> simp only [Config.defaultParams]
  · omega
  · omega

/-- Settles O52: the store is empty, the session is idle, and every sample is 0. -/
theorem resetMeetsInvariant : Obligations.ResetMeetsInvariant := by
  have hstore : State.reset.storeInRange := ⟨Nat.le_refl 0, Nat.zero_le _⟩
  have hcursor : State.reset.cursorInRange := ⟨Nat.le_refl 0, fun _ => rfl⟩
  have hfit : State.reset.samplesFit := ⟨fitsSigned_zero _, fitsSigned_zero _, fitsSigned_zero _⟩
  have hloop : State.reset.loopInRange := nofun
  have hload : State.reset.loadInStep := nofun
  have henv : State.reset.env.inRange := by decide
  have hdrv : State.reset.drv.consistent := by decide
  exact ⟨defaultParams_wf, reset_memory_wf, hstore, hcursor, hfit, hloop, hload, henv, hdrv⟩

/-- Settles O58: it is nobody's turn. -/
theorem waitingCoreKeepsItsState : Obligations.WaitingCoreKeepsItsState :=
  fun _ hs hh he => step_of_waiting hs hh he

end Sys2Proof.Proofs.Scope

/-! # 10_state.md: every step keeps the invariant -/

namespace Sys2Proof.Proofs.Invariant

open Sys2Proof.Machine

/-- An outcome that answers no state outside the invariant. -/
def KeepsInv (o : Host.Outcome State Fault Refusal) : Prop := ∀ t, o = .next t → t.Inv

@[simp] theorem keepsInv_next {t : State} : KeepsInv (.next t) ↔ t.Inv := by simp [KeepsInv]

@[simp] theorem keepsInv_fault (f : Fault) : KeepsInv (.fault f) := by simp [KeepsInv]

@[simp] theorem keepsInv_refused (r : Refusal) : KeepsInv (.refused r) := by simp [KeepsInv]

/-! ## The host's side and `BLK_SEL`: no conjunct is about them -/

section
variable {s : State}
@[simp] theorem inv_withHost {x : List HostEntry} : (s.withHost x).Inv ↔ s.Inv := Iff.rfl
@[simp] theorem inv_withHeld {x : List (BitVec 2)} : (s.withHeld x).Inv ↔ s.Inv := Iff.rfl
@[simp] theorem inv_withReadData {x : Word} : (s.withReadData x).Inv ↔ s.Inv := Iff.rfl
@[simp] theorem inv_withBlkSel {x : BitVec 31} : (s.withBlkSel x).Inv ↔ s.Inv := Iff.rfl
@[simp] theorem inv_holdCommand {c : BitVec 2} : (holdCommand c s).Inv ↔ s.Inv := Iff.rfl
end

/-! ## The driver's registers -/

/-- Outside ERROR there is no error code (60_exceptions.md R231). -/
theorem errCode_eq_none {d : Driver} (h : d.consistent) (hs : d.status ≠ .error) : d.errCode = .none := by
  obtain ⟨hcode, -, -⟩ := h
  by_contra hne
  exact hs (hcode.2 hne)

theorem consistent_of_errCode_none {d : Driver} (hcode : d.errCode = .none) (hs : d.status ≠ .error)
    (hv : d.outValid = true → d.status = .play) : d.consistent :=
  ⟨⟨fun h => absurd h hs, fun h => absurd hcode h⟩, by simp [hcode], hv⟩

/-- What a change of the driver's registers alone has to respect. -/
theorem inv_withDrv {s : State} {d : Driver} (hs : s.Inv) (hd : d.consistent)
    (hout : fitsSigned s.params.histW d.outSample) (hloop : (s.withDrv d).loopInRange)
    (hload : (s.withDrv d).loadInStep) : (s.withDrv d).Inv := by
  obtain ⟨hp, hsrc, hstore, hcur, ⟨hprev, hprev2, -⟩, -, -, henv, -⟩ := hs
  exact ⟨hp, hsrc, hstore, hcur, ⟨hprev, hprev2, hout⟩, hloop, hload, henv, hd⟩

/-- Entering ERROR with any code but the reserved one (60_exceptions.md R230, R231). -/
theorem inv_raiseError {s : State} {c : ErrCode} (w : Word) (hs : s.Inv) (hc : c ≠ .none)
    (hf : c ≠ .formatFilter) : (raiseError c w s).Inv := by
  obtain ⟨-, -, -, -, ⟨-, -, hout⟩, -⟩ := id hs
  exact inv_withDrv hs ⟨⟨fun _ => hc, fun _ => rfl⟩, hf, nofun⟩ hout nofun nofun

/-! ## The Block Decoder -/

/-- PLAY is entered only past the loop check (40_block_decoder.md R116). -/
theorem inv_loadComplete {s : State} (hs : s.Inv) (hl : s.drv.status = .loading) : (loadComplete s).Inv := by
  obtain ⟨-, -, -, -, ⟨-, -, hout⟩, -, -, -, hdrv⟩ := id hs
  unfold loadComplete
  split
  · exact inv_raiseError _ hs nofun nofun
  · rename_i hrange
    have hnone := errCode_eq_none hdrv (by simp [hl])
    refine inv_withDrv hs (consistent_of_errCode_none hnone nofun fun _ => rfl) hout (fun _ hp => ?_) nofun
    have hp : s.cfg.loop.present = true := hp
    simpa [loopOutOfRange, hp] using hrange

/-- A block kept below the store's capacity and the override's count, and inside the source. -/
theorem inv_keepBlock {s : State} (r : BlockRec) (hs : s.Inv) (hl : s.drv.status = .loading)
    (hfull : storeFull s = false) (hcount : countReached s = false) (hsrclen : sourceExhausted s = false) :
    (keepBlock r s).Inv := by
  obtain ⟨hp, hsrc, ⟨hnblk, hlen⟩, ⟨hcur, -⟩, hfit, -, hload, henv, hdrv⟩ := hs
  obtain ⟨hptr, hendovr⟩ := hload hl
  obtain ⟨-, -, hmax, -⟩ := id hp
  have hroom : s.load.nblk.toNat < s.params.maxBlocks := by
    have : s.load.nblk.toNat ≠ s.params.maxBlocks := by simpa [storeFull] using hfull
    omega
  have hnext : (s.load.nblk + 1).toNat = s.load.nblk.toNat + 1 :=
    BitVec.toNat_add_of_lt (by simp; omega)
  have hptrNext : (s.load.ldPtr + 9).toNat = s.load.ldPtr.toNat + 9 := by
    have := s.cfg.srclen.isLt
    have : s.load.ldPtr.toNat + 9 ≤ s.cfg.srclen.toNat := by simpa [sourceExhausted] using hsrclen
    exact BitVec.toNat_add_of_lt (by simp; omega)
  have hstore : (keepBlock r s).storeInRange := by
    simp only [State.storeInRange, keepBlock, State.withLoad_load, State.withLoad_params, writeBlk_length, hnext]
    omega
  have hcursor : (keepBlock r s).cursorInRange := by
    simp only [State.cursorInRange, keepBlock, State.withLoad_load, State.withLoad_stream, hnext]
    exact ⟨by omega, fun h => absurd h (by omega)⟩
  have hstep : (keepBlock r s).loadInStep := by
    intro _
    simp only [keepBlock, State.withLoad_load, State.withLoad_cfg, hnext, hptrNext]
    refine ⟨by omega, fun hpres => ?_⟩
    have hle := hendovr hpres
    have hne : s.load.nblk.toNat ≠ s.cfg.endovr.count.toNat := by
      simpa [countReached, hpres, BitVec.toNat_eq] using hcount
    omega
  have hloop : (keepBlock r s).loopInRange := fun hplay => nomatch hl.symm.trans hplay
  exact ⟨hp, hsrc, hstore, hcursor, hfit, hloop, hstep, henv, hdrv⟩

theorem execParseBlock_keepsInv (range : BitVec 4) (filter : BitVec 2) (loop ends : Bool)
    (nibbles : List (BitVec 4)) {s : State} (hs : s.Inv) (hl : s.drv.status = .loading)
    (hcount : countReached s = false) (hsrclen : sourceExhausted s = false) :
    KeepsInv (execParseBlock range filter loop ends nibbles s) := by
  unfold execParseBlock
  split
  · exact keepsInv_next.2 (inv_raiseError _ hs nofun nofun)
  · rename_i hfull
    have hkept := inv_keepBlock (blockRecord range filter loop ends nibbles) hs hl (by simpa using hfull)
      hcount hsrclen
    split
    · exact keepsInv_next.2 (inv_loadComplete hkept hl)
    · exact keepsInv_next.2 hkept

theorem loadAction_keepsInv {s : State} (hs : s.Inv) (hl : s.drv.status = .loading) :
    KeepsInv (outcomeOf (loadAction s)) := by
  rcases loadAction_cases s with ⟨h, -⟩ | ⟨h, -⟩ | ⟨hcount, hsrclen, range, filter, loop, ends, nibbles, -, h⟩
  · rw [h]
    exact keepsInv_next.2 (inv_loadComplete hs hl)
  · rw [h]
    exact keepsInv_next.2 (inv_raiseError _ hs nofun nofun)
  · rw [h]
    exact execParseBlock_keepsInv range filter loop ends nibbles hs hl hcount hsrclen

/-! ## START -/

/-- An accepted START leaves an empty store, the cursor at its start and no history
(43_playback_driver.md R202). -/
theorem inv_loadInit_initSession {s : State} (hs : s.Inv) (he : s.drv.status ≠ .error) :
    (loadInit (initSession s)).Inv := by
  obtain ⟨hp, hsrc, ⟨-, hlen⟩, -, ⟨-, -, hout⟩, -, -, -, hdrv⟩ := hs
  have hnone : s.drv.errCode = .none := errCode_eq_none hdrv he
  have hstep : (loadInit (initSession s)).loadInStep :=
    fun _ => ⟨BitVec.toNat_setWidth_of_le (by decide), fun _ => Nat.zero_le _⟩
  exact ⟨hp, hsrc, ⟨Nat.zero_le _, hlen⟩, ⟨Nat.le_refl 0, fun _ => rfl⟩,
    ⟨fitsSigned_zero _, fitsSigned_zero _, hout⟩, nofun, hstep, constructEnv_inRange s.cfg s.env,
    consistent_of_errCode_none hnone nofun nofun⟩

theorem inv_startSession {s : State} (hs : s.Inv) (he : s.drv.status ≠ .error) : (startSession s).Inv := by
  unfold startSession
  split
  · exact inv_raiseError _ hs nofun nofun
  · split
    · exact inv_raiseError _ hs nofun nofun
    · exact inv_loadInit_initSession hs he

/-! ## PULL -/

/-- The level of every kind is at most 0x800 (42_envelope.md R180). -/
theorem level_le {e : Env} (h : e.inRange) : e.level.toNat ≤ 0x800 := by
  obtain ⟨hdirect, hother, -, -⟩ := h
  by_cases hk : e.kind = .gainDirect
  · exact (hdirect hk).2.2
  · have := hother hk
    omega

/-- The state after a sample `v` that fits: the scaled sample lies between it and 0. -/
theorem inv_finishPull {s : State} {v : Int} (hs : s.Inv) (hplay : s.drv.status = .play)
    (hnext : hasNext s = true) (hv : fitsSigned s.params.histW v = true) :
    (finishPull (s.withStream (advanceCursor (pushHistory v s.stream)))).Inv := by
  obtain ⟨hp, hsrc, hstore, -, ⟨hprev, -, -⟩, hloop, -, henv, hdrv⟩ := hs
  have hcursor := advanceCursor_inRange (t := pushHistory v s.stream) (hasNext_iff.1 hnext)
  have hnone := errCode_eq_none hdrv (by simp [hplay])
  have hfit : (finishPull (s.withStream (advanceCursor (pushHistory v s.stream)))).samplesFit := by
    have hscaled := fitsSigned_between hv (scaleSample_between s.params.scaleRound v (level_le henv))
    simp [State.samplesFit, finishPull, emitSample, advanceCursor_prev, advanceCursor_prev2, pushHistory, hv, hprev,
      hscaled]
  have hstep : (finishPull (s.withStream (advanceCursor (pushHistory v s.stream)))).loadInStep :=
    fun hl => nomatch hplay.symm.trans hl
  exact ⟨hp, hsrc, hstore, hcursor, hfit, hloop, hstep, advanceEnv_inRange hp henv,
    consistent_of_errCode_none hnone (by simp [finishPull, emitSample, hplay]) fun _ => hplay⟩

theorem pullSample_keepsInv {s : State} (hs : s.Inv) (hplay : s.drv.status = .play) : KeepsInv (pullSample s) := by
  rcases pullSample_cases s with ⟨-, h⟩ | ⟨hnext, v, -, ⟨hv, h⟩ | ⟨-, h⟩⟩
  · simp [h]
  · rw [h]
    exact keepsInv_next.2 (inv_finishPull hs hplay hnext hv)
  · rw [h]
    exact keepsInv_next.2 (inv_raiseError _ hs nofun nofun)

/-- The cursor moved to a retained block (41_sample_stream.md R146). -/
theorem inv_loopTo {s : State} {i : BitVec 31} (hs : s.Inv) (hi : i.toNat < s.load.nblk.toNat) : (loopTo i s).Inv := by
  obtain ⟨hp, hsrc, hstore, -, hrest⟩ := hs
  exact ⟨hp, hsrc, hstore, ⟨Nat.le_of_lt hi, fun _ => rfl⟩, hrest⟩

theorem inv_endSession {s : State} (hs : s.Inv) (hplay : s.drv.status = .play) : (endSession s).Inv := by
  obtain ⟨-, -, -, -, ⟨-, -, hout⟩, -, -, -, hdrv⟩ := id hs
  have hnone := errCode_eq_none hdrv (by simp [hplay])
  exact inv_withDrv hs (consistent_of_errCode_none hnone nofun nofun) hout nofun nofun

theorem pullStep_keepsInv {s : State} (hs : s.Inv) (hplay : s.drv.status = .play) : KeepsInv (pullStep s) := by
  obtain ⟨-, -, -, -, -, hloop, -⟩ := id hs
  unfold pullStep
  split
  · exact pullSample_keepsInv hs hplay
  · split
    · rename_i hagain
      have hpres : s.cfg.loop.present = true := (Bool.and_eq_true_iff.1 hagain).1
      exact pullSample_keepsInv (inv_loopTo hs (hloop hplay hpres)) hplay
    · exact keepsInv_next.2 (inv_endSession hs hplay)

/-! ## The commands -/

theorem execNop_keepsInv {s : State} (hs : s.Inv) : KeepsInv (execNop s) := by
  unfold execNop
  split <;> simpa using hs

theorem execStart_keepsInv {s : State} (hs : s.Inv) : KeepsInv (execStart s) := by
  unfold execStart
  cases h : s.drv.status with
  | loading | error => simpa using hs
  | idle | play | done => exact keepsInv_next.2 (inv_startSession hs (by simp [h]))

theorem execPull_keepsInv {s : State} (hs : s.Inv) : KeepsInv (execPull s) := by
  unfold execPull
  cases h : s.drv.status with
  | loading | error => simpa using hs
  | idle | done => exact keepsInv_next.2 (inv_raiseError _ hs nofun nofun)
  | play => exact pullStep_keepsInv hs h

theorem execCmdReserved_keepsInv {s : State} (hs : s.Inv) : KeepsInv (execCmdReserved s) := by
  unfold execCmdReserved
  cases s.drv.status with
  | loading | error => simpa using hs
  | idle | play | done => exact keepsInv_next.2 (inv_raiseError _ hs nofun nofun)

/-- A command's two bits name one of the four commands (30_encoding.md R90). -/
theorem decodeCmd_cases (c : BitVec 2) :
    decodeCmd c = .nop ∨ decodeCmd c = .start ∨ decodeCmd c = .pull ∨ decodeCmd c = .cmdReserved := by
  revert c
  decide

theorem exec_decodeCmd_keepsInv (c : BitVec 2) {s : State} (hs : s.Inv) : KeepsInv (exec (decodeCmd c) s) := by
  rcases decodeCmd_cases c with h | h | h | h <;> rw [h]
  · exact execNop_keepsInv hs
  · exact execStart_keepsInv hs
  · exact execPull_keepsInv hs
  · exact execCmdReserved_keepsInv hs

/-! ## The host's actions -/

/-- The reset state with the parameters and the source bytes of a state of the invariant. -/
theorem inv_resetCore {s : State} (hs : s.Inv) : (resetCore s).Inv := by
  obtain ⟨hp, hsrc, -⟩ := hs
  obtain ⟨-, -, -, hcursor, -, hloop, hload, henv, hdrv⟩ := Scope.resetMeetsInvariant
  exact ⟨hp, hsrc, ⟨Nat.le_refl 0, Nat.zero_le _⟩, hcursor,
    ⟨fitsSigned_zero _, fitsSigned_zero _, fitsSigned_zero _⟩, hloop, hload, henv, hdrv⟩

theorem inv_withSrc_write {s : State} (hs : s.Inv) (a : BitVec srcAddrW) (b : Byte) :
    (s.withSrc (s.src.write a.toNat b)).Inv := by
  obtain ⟨hp, hsrc, hrest⟩ := hs
  exact ⟨hp, Memory.wf_write hsrc a.isLt b, hrest⟩

/-- The conjuncts about the configuration speak of PLAY and LOADING, where it cannot be written
(10_state.md R41). -/
theorem inv_withCfg {s : State} (c : Cfg) (hs : s.Inv) (hw : cfgWritable s = true) : (s.withCfg c).Inv := by
  have hidle : s.drv.status = .idle ∨ s.drv.status = .done := by simpa [cfgWritable] using hw
  have hplay : s.drv.status ≠ .play := by rcases hidle with h | h <;> simp [h]
  have hload : s.drv.status ≠ .loading := by rcases hidle with h | h <;> simp [h]
  obtain ⟨hp, hsrc, hstore, hcur, hfit, -, -, hrest⟩ := hs
  exact ⟨hp, hsrc, hstore, hcur, hfit, fun h => absurd h hplay, fun h => absurd h hload, hrest⟩

theorem hostAction_keepsInv (op : HostOp) {s : State} (hs : s.Inv) : KeepsInv (outcomeOf (hostAction op s)) := by
  rcases hostAction_cases op s with
    ⟨r, h⟩ | ⟨v, h⟩ | ⟨-, h⟩ | ⟨a, b, -, -, h⟩ | ⟨c, hw, h⟩ | ⟨x, h⟩ | h | ⟨w, -, h⟩ <;> rw [h]
  · exact keepsInv_refused r
  · exact keepsInv_next.2 (inv_withReadData.2 hs)
  · exact keepsInv_next.2 (inv_resetCore hs)
  · exact keepsInv_next.2 (inv_withSrc_write hs a b)
  · exact keepsInv_next.2 (inv_withCfg c hs hw)
  · exact keepsInv_next.2 (inv_withBlkSel.2 hs)
  · exact keepsInv_next.2 hs
  · exact exec_decodeCmd_keepsInv (w.extractLsb' 0 2) hs

/-! ## Every step -/

theorem step_keepsInv {s : State} (hs : s.Inv) : KeepsInv (step s) := by
  rcases turn_cases s with ⟨t, ht⟩ | ⟨op, rest, ht⟩ | ⟨hl, c, cs, hc⟩ | ⟨hl, hheld, hhost⟩
  · rw [step_of_loadTurn ht]
    obtain ⟨hl, ⟨-, rfl⟩ | ⟨n, op, rest, -, rfl⟩⟩ := ht
    · exact loadAction_keepsInv hs hl
    · exact loadAction_keepsInv (inv_withHost.2 hs) hl
  · rw [step_of_hostTurn ht]
    exact hostAction_keepsInv op (inv_withHost.2 hs)
  · rw [step_of_held hl hc]
    exact exec_decodeCmd_keepsInv c (inv_withHeld.2 hs)
  · rw [step_of_waiting hl hheld hhost]
    exact keepsInv_next.2 hs

/-- Settles O53: by whose turn it is, each turn's answer keeping every conjunct. -/
theorem stepKeepsInvariant : Obligations.StepKeepsInvariant :=
  fun _ t hs h => step_keepsInv hs t h

end Sys2Proof.Proofs.Invariant

/-! # 10_state.md: the host registers, their writes, the debug window, ERROR and the commands -/

namespace Sys2Proof.Proofs.Registers

open Sys2Proof.Machine Sys2Proof.Statements

/-- Settles O4: the decoder run on each word. -/
theorem writtenWordsDecode : Obligations.WrittenWordsDecode := by
  unfold Obligations.WrittenWordsDecode
  decide

/-! ## Reading a register -/

theorem regRead_regOffset (s : State) (r : HostReg) : regRead s (regOffset r) = readReg s r := by
  rw [regRead, hostRegAt_regOffset]

/-- What a register reads as does not depend on the host's coming accesses. -/
@[simp] theorem readReg_withHost (s : State) (x : List HostEntry) (r : HostReg) :
    readReg (s.withHost x) r = readReg s r := by
  cases r <;> rfl

@[simp] theorem regRead_withHost (s : State) (x : List HostEntry) (offset : Word) :
    regRead (s.withHost x) offset = regRead s offset := by
  unfold regRead
  cases hostRegAt offset with
  | none => rfl
  | some r => exact readReg_withHost s x r

/-- The word of a signed register whose value fits 32 bits (10_state.md R31, R36). -/
theorem toInt_readSigned {v : Int} (histW : Nat) (h : Fits 32 v) : (readSigned histW v).toInt = v := by
  obtain ⟨hlo, hhi⟩ := id h
  rw [readSigned, if_pos (fitsSigned_iff.2 h)]
  exact BitVec.toInt_ofInt_eq_self (by decide) hlo (by omega)

/-- Between the `PRESENT` bit and its field a register's bits are 0 (10_state.md R24 to R27). -/
theorem packPresent_eq_append {n k : Nat} (h : n + k = 31) (present : Bool) (field : BitVec n) :
    packPresent present field = (BitVec.ofBool present ++ 0#k ++ field).cast (by omega) := by
  have hfield : (field.setWidth 31).toNat = field.toNat := BitVec.toNat_setWidth_of_le (by omega)
  apply BitVec.eq_of_toNat_eq
  rw [packPresent, BitVec.toNat_append, BitVec.toNat_cast, BitVec.toNat_append, BitVec.toNat_append, hfield,
    BitVec.toNat_zero, Nat.or_zero, ← Nat.shiftLeft_add, Nat.add_comm k n, h]

/-- Settles O59: the packed words by `packPresent_eq_append`, the signed ones by `toInt_readSigned`; a
shorter register is extended with zeros, and OUT_COUNT is cut in its two halves. -/
theorem registersReadTheirState : Obligations.RegistersReadTheirState := by
  intro s
  have hcount := s.drv.outCount.isLt
  have hhigh : (s.drv.outCount.extractLsb' 32 32).toNat = s.drv.outCount.toNat / 2 ^ 32 := by
    rw [BitVec.extractLsb'_toNat, Nat.shiftRight_eq_div_pow]
    exact Nat.mod_eq_of_lt (by omega)
  exact ⟨rfl, packPresent_eq_append (k := 15) rfl _ _, packPresent_eq_append (k := 23) rfl _ _,
    congrArg (BitVec.ofBool s.cfg.endovr.present ++ ·) (BitVec.setWidth_eq _),
    congrArg (BitVec.ofBool s.cfg.loop.present ++ ·) (BitVec.setWidth_eq _), rfl, rfl, rfl,
    toInt_readSigned s.params.histW,
    BitVec.toNat_setWidth_of_le (by decide), BitVec.toNat_setWidth_of_le (by decide), rfl,
    BitVec.toNat_setWidth_of_le (by decide), BitVec.toNat_setWidth_of_le (by decide),
    toInt_readSigned s.params.histW, toInt_readSigned s.params.histW,
    BitVec.extractLsb'_toNat 0 32 s.drv.outCount, hhigh,
    BitVec.toNat_setWidth_of_le (by decide), BitVec.toNat_setWidth_of_le (by decide)⟩

/-! ### STATUS -/

/-- The fields of a word laid out as STATUS (10_state.md R23): each is reached past the ones below it. -/
theorem statusLayout_fields (phase kind : BitVec 2) (code : BitVec 4) (valid : Bool) (status : BitVec 3) :
    let w := (0 : BitVec 20) ++ phase ++ kind ++ code ++ BitVec.ofBool valid ++ status
    w.extractLsb' 0 3 = status ∧ w.extractLsb' 3 1 = BitVec.ofBool valid ∧ w.extractLsb' 4 4 = code ∧
    w.extractLsb' 8 2 = kind ∧ w.extractLsb' 10 2 = phase ∧ w.extractLsb' 12 20 = 0 := by
  refine ⟨BitVec.extractLsb'_append_eq_right, ?_, ?_, ?_, ?_, ?_⟩ <;>
    repeat rw [BitVec.extractLsb'_append_eq_of_le (by decide)]
  · exact BitVec.extractLsb'_append_eq_right
  · exact BitVec.extractLsb'_append_eq_right
  · exact BitVec.extractLsb'_append_eq_right
  · exact BitVec.extractLsb'_append_eq_right
  · exact BitVec.extractLsb'_eq_self

/-- Settles O7: the layout's fields, and the codes by the driver's state, the error code and the kind. -/
theorem statusWordFields : Obligations.StatusWordFields := by
  intro s
  obtain ⟨hstatus, hvalid, hcode, hkind, hphase, hrest⟩ := statusLayout_fields s.env.phase (envKindCode s.env.kind)
    (errCodeNumber s.drv.errCode) s.drv.outValid (driverStateCode s.drv.status)
  rw [show regRead s 0x04 = statusWord s from regRead_regOffset s .status]
  refine ⟨(congrArg BitVec.toNat hstatus).trans ?_, by simpa [statusWord] using congrArg (·.getLsbD 0) hvalid,
    (congrArg BitVec.toNat hcode).trans ?_, (congrArg BitVec.toNat hkind).trans ?_, hphase, hrest⟩
  · cases s.drv.status <;> rfl
  · cases s.drv.errCode <;> rfl
  · cases s.env.kind <;> rfl

/-! ### The debug window -/

/-- Past `NBLK` the window is closed (10_state.md R39). -/
theorem regRead_closedWindow {s : State} (h : s.load.nblk.toNat ≤ s.blkSel.toNat) :
    regRead s 0x54 = 0 ∧ regRead s 0x58 = 0 ∧ regRead s 0x5C = 0 := by
  have hclosed : ¬ windowOpen s = true := by simpa [windowOpen] using h
  exact ⟨if_neg hclosed, if_neg hclosed, if_neg hclosed⟩

/-- Inside it the window shows the record selected. -/
theorem regRead_openWindow {s : State} {r : BlockRec} (h : s.blkSel.toNat < s.load.nblk.toNat)
    (hr : windowBlock s = r) :
    regRead s 0x54 = (recordHeader r).setWidth 32 ∧ regRead s 0x58 = packCodesHi r.nib ∧
    regRead s 0x5C = packCodesLo r.nib := by
  subst hr
  have hopen : windowOpen s = true := by simpa [windowOpen] using h
  exact ⟨if_pos hopen, if_pos hopen, if_pos hopen⟩

/-- Settles O5: with an empty store the window is closed at every BLK_SEL. -/
theorem resetTable : Obligations.ResetTable := by
  unfold Obligations.ResetTable
  refine ⟨rfl, rfl, rfl, rfl, rfl, rfl, rfl, rfl, rfl, rfl, rfl, rfl, rfl, rfl, rfl, rfl, rfl, rfl, rfl, rfl,
    rfl, rfl, rfl, rfl, rfl, rfl, rfl, rfl, rfl, fun sel => ?_⟩
  exact regRead_closedWindow (Nat.zero_le _)

/-- Four bytes are their eight nibbles, each high then low. -/
theorem nibbles_append (a b c d : Byte) :
    a.extractLsb' 4 4 ++ a.extractLsb' 0 4 ++ b.extractLsb' 4 4 ++ b.extractLsb' 0 4 ++
      c.extractLsb' 4 4 ++ c.extractLsb' 0 4 ++ d.extractLsb' 4 4 ++ d.extractLsb' 0 4 = a ++ b ++ c ++ d := by
  have hbyte : ∀ x : Byte, x = x.extractLsb' 4 4 ++ x.extractLsb' 0 4 := by decide
  conv_rhs => rw [hbyte a, hbyte b, hbyte c, hbyte d]
  simp only [BitVec.append_assoc, BitVec.cast_eq]

theorem packCodesHi_unpackNibbles (range : BitVec 4) (filter : BitVec 2) (loop ends : Bool)
    (d1 d2 d3 d4 d5 d6 d7 d8 : Byte) :
    packCodesHi (blockRecord range filter loop ends (unpackNibbles [d1, d2, d3, d4, d5, d6, d7, d8])).nib =
      d1 ++ d2 ++ d3 ++ d4 := by
  simp only [packCodesHi, blockRecord_nib, unpackNibbles]
  exact nibbles_append d1 d2 d3 d4

theorem packCodesLo_unpackNibbles (range : BitVec 4) (filter : BitVec 2) (loop ends : Bool)
    (d1 d2 d3 d4 d5 d6 d7 d8 : Byte) :
    packCodesLo (blockRecord range filter loop ends (unpackNibbles [d1, d2, d3, d4, d5, d6, d7, d8])).nib =
      d5 ++ d6 ++ d7 ++ d8 := by
  simp only [packCodesLo, blockRecord_nib, unpackNibbles]
  exact nibbles_append d5 d6 d7 d8

@[simp] theorem loadComplete_load (s : State) : (loadComplete s).load = s.load := by
  unfold loadComplete
  split <;> rfl

/-- With room in the store PARSE_BLOCK keeps the record, whether or not it completes the LOAD. -/
theorem execParseBlock_load {s : State} (range : BitVec 4) (filter : BitVec 2) (loop ends : Bool)
    (nibbles : List (BitVec 4)) (hroom : storeFull s = false) :
    ∃ t, execParseBlock range filter loop ends nibbles s = .next t ∧
      t.load = (keepBlock (blockRecord range filter loop ends nibbles) s).load := by
  rw [execParseBlock, hroom]
  cases ends with
  | true => exact ⟨_, rfl, loadComplete_load _⟩
  | false => exact ⟨_, rfl, rfl⟩

/-- Settles O12: the record kept at `NBLK` packs back to the bytes it was parsed from. -/
theorem windowShowsTheParsedBytes : Obligations.WindowShowsTheParsedBytes := by
  intro s h d1 d2 d3 d4 d5 d6 d7 d8 i hi hp hroom
  obtain ⟨-, -, hmax, -⟩ := hp
  obtain rfl : _ = i := Except.ok.inj hi
  obtain ⟨t, ht, hload⟩ := execParseBlock_load (headerRange h) (headerFilter h) (headerLoop h) (headerEnd h)
    (unpackNibbles [d1, d2, d3, d4, d5, d6, d7, d8]) (s := s) (by simp [storeFull]; omega)
  have hnext : (s.load.nblk + 1).toNat = s.load.nblk.toNat + 1 := BitVec.toNat_add_of_lt (by simp; omega)
  have hopen : (t.withBlkSel s.load.nblk).blkSel.toNat < (t.withBlkSel s.load.nblk).load.nblk.toNat := by
    simp only [State.withBlkSel_blkSel, State.withBlkSel_load, hload, keepBlock, State.withLoad_load, hnext]
    omega
  have hrecord : windowBlock (t.withBlkSel s.load.nblk) =
      blockRecord (headerRange h) (headerFilter h) (headerLoop h) (headerEnd h)
        (unpackNibbles [d1, d2, d3, d4, d5, d6, d7, d8]) := by
    simp [windowBlock, hload, keepBlock, readBlk_writeBlk_same]
  obtain ⟨hheader, hhi, hlo⟩ := regRead_openWindow hopen hrecord
  refine ⟨t, ht, hheader.trans ?_, hhi.trans (packCodesHi_unpackNibbles ..),
    hlo.trans (packCodesLo_unpackNibbles ..)⟩
  simp [recordHeader, blockRecord]

/-! ## The host's accesses -/

theorem accessRefusal_width {width : Nat} (offset : Word) (h : width ≠ 32) :
    accessRefusal width offset = some .hostAccessWidth := if_pos h

theorem accessRefusal_misaligned {offset : Word} (h : offset.toNat % 4 ≠ 0) :
    accessRefusal 32 offset = some .hostAccessMisaligned := by
  simp [accessRefusal, h]

theorem accessRefusal_aligned {offset : Word} (h : offset.toNat % 4 = 0) : accessRefusal 32 offset = none := by
  simp [accessRefusal, h]

theorem regOffset_aligned (r : HostReg) : (regOffset r).toNat % 4 = 0 := by
  cases r <;> rfl

theorem hostRegAt_unlisted {offset : Word} (h : ∀ r : HostReg, regOffset r ≠ offset) : hostRegAt offset = none := by
  cases hr : hostRegAt offset with
  | none => rfl
  | some r => exact absurd (regOffset_of_hostRegAt hr) (h r)

section
variable {s : State} {offset v : Word} {rest : List HostEntry}

/-- An access that 20_memory.md R65 does not define. -/
theorem step_of_refusedAccess {width : Nat} {r : Refusal} (hr : accessRefusal width offset = some r)
    (h : HostTurn s (.read width offset) rest ∨ HostTurn s (.write width offset v) rest) : step s = .refused r := by
  rcases h with h | h <;> rw [step_of_hostTurn h] <;> simp [hostAction, hr, outcomeOf]

theorem step_of_read (ha : offset.toNat % 4 = 0) (h : HostTurn s (.read 32 offset) rest) :
    step s = .next (afterRead s rest (regRead s offset)) := by
  rw [step_of_hostTurn h]
  simp only [hostAction, accessRefusal_aligned ha, regRead_withHost]
  rfl

theorem step_of_write (ha : offset.toNat % 4 = 0) (h : HostTurn s (.write 32 offset v) rest) :
    step s = outcomeOf (writeAction offset v (s.withHost rest)) := by
  rw [step_of_hostTurn h]
  simp only [hostAction, accessRefusal_aligned ha]

theorem step_of_regWrite {r : HostReg} (hr : r ≠ .ctrl) (h : HostTurn s (.write 32 (regOffset r) v) rest) :
    step s = .next (writeReg (s.withHost rest) r v) := by
  rw [step_of_write (regOffset_aligned r) h, writeAction, hostRegAt_regOffset]
  cases r with
  | ctrl => exact absurd rfl hr
  | _ => rfl
end

/-- A configuration register, or one that only reads (10_state.md R41). -/
theorem writeReg_of_ne_blkSel {r : HostReg} (s : State) (v : Word) (h : r ≠ .blkSel) :
    writeReg s r v = if cfgWritable s then s.withCfg (writeCfg s.cfg r v) else s := by
  cases r with
  | blkSel => exact absurd rfl h
  | _ => rfl

theorem writeReg_readOnly {r : HostReg} (s : State) (v : Word) (hc : ¬ IsCfg r) (hb : r ≠ .blkSel) :
    writeReg s r v = s := by
  simp only [IsCfg, not_or] at hc
  rw [writeReg_of_ne_blkSel s v hb, writeCfg_readOnly s.cfg r v hc, State.withCfg_self, ite_self]

/-- Settles O9: refused accesses by `step_of_refusedAccess`; an unlisted offset has no register. -/
theorem undefinedAccesses : Obligations.UndefinedAccesses := by
  intro s width offset v rest
  refine ⟨fun hw => step_of_refusedAccess (accessRefusal_width offset hw),
    fun ha => step_of_refusedAccess (accessRefusal_misaligned ha),
    fun ha hr => ⟨fun h => ?_, fun h => ?_⟩, fun r hc hctrl hb h => ?_⟩
  · rw [step_of_read ha h, regRead, hostRegAt_unlisted hr]
  · rw [step_of_write ha h, writeAction, hostRegAt_unlisted hr]
    rfl
  · rw [step_of_regWrite hctrl h, writeReg_readOnly _ v hc hb]

/-! ### BLK_SEL and the configuration -/

/-- A write that keeps all bits but bit 31. -/
theorem setWidth_extractLsb'_eq_and (v : Word) : (v.extractLsb' 0 31).setWidth 32 = v &&& 0x7FFFFFFF := by
  apply BitVec.eq_of_toNat_eq
  rw [BitVec.toNat_setWidth_of_le (by decide), BitVec.extractLsb'_toNat, BitVec.toNat_and]
  exact (Nat.and_two_pow_sub_one_eq_mod v.toNat 31).symm

/-- Settles O11: BLK_SEL alone is written, whatever the driver's state. -/
theorem blockSelectAndClosedWindow : Obligations.BlockSelectAndClosedWindow := by
  intro s v rest
  exact ⟨fun h => ⟨v.extractLsb' 0 31, step_of_regWrite (r := .blkSel) nofun h, setWidth_extractLsb'_eq_and v⟩,
    regRead_closedWindow⟩

/-- The bits of a register with a `PRESENT` bit. -/
theorem getLsbD_packPresent {n : Nat} (present : Bool) (field : BitVec n) (i : Nat) :
    (packPresent present field).getLsbD i =
      if i < 31 then field.getLsbD i else decide (i = 31) && present := by
  rw [packPresent, BitVec.getLsbD_append, BitVec.getLsbD_setWidth, BitVec.getLsbD_ofBool]
  by_cases hi : i < 31
  · simp [hi]
  · have htop : i - 31 = 0 ↔ i = 31 := by omega
    simp [hi, htop]

/-- A register with a `PRESENT` bit over `n` bits keeps just these bits of a write. -/
theorem packPresent_eq_and {n : Nat} (v mask : Word)
    (hmask : ∀ i < 32, mask.getLsbD i = (decide (i < n) || decide (i = 31))) :
    packPresent (v.getLsbD 31) (v.extractLsb' 0 n) = v &&& mask := by
  apply BitVec.eq_of_getLsbD_eq
  intro i hi
  rw [getLsbD_packPresent, BitVec.getLsbD_and, hmask i hi, BitVec.getLsbD_extractLsb']
  by_cases h31 : i < 31
  · simp [h31, show ¬ i = 31 by omega, Bool.and_comm]
  · simp [show i = 31 by omega]

/-- The register written reads back as the bits it keeps (10_state.md R24 to R30). -/
theorem readReg_writeCfg_same (s : State) {r : HostReg} (v : Word) (hr : IsCfg r) :
    readReg (s.withCfg (writeCfg s.cfg r v)) r = v &&& keptBits r := by
  rcases hr with rfl | rfl | rfl | rfl | rfl | rfl | rfl
  · exact packPresent_eq_and v _ (by decide)
  · exact packPresent_eq_and v _ (by decide)
  · exact packPresent_eq_and v _ (by decide)
  · exact packPresent_eq_and v _ (by decide)
  · exact BitVec.and_allOnes.symm
  · exact BitVec.and_allOnes.symm
  · exact BitVec.and_allOnes.symm

/-- No register but the configuration's reads the configuration. -/
theorem readReg_withCfg {q : HostReg} (s : State) (c : Cfg) (hq : ¬ IsCfg q) :
    readReg (s.withCfg c) q = readReg s q := by
  cases q with
  | cfgAdsr | cfgGain | cfgEndovr | cfgLoop | cfgRate | cfgOffset | cfgSrclen => simp at hq
  | _ => rfl

/-- Every other register reads as before (10_state.md R41): a write to one configuration register leaves the
fields of the other six. -/
theorem readReg_writeCfg_other (s : State) {q r : HostReg} (v : Word) (h : q ≠ r) :
    readReg (s.withCfg (writeCfg s.cfg r v)) q = readReg s q := by
  by_cases hq : IsCfg q
  · rcases hq with rfl | rfl | rfl | rfl | rfl | rfl | rfl <;> cases r <;> simp_all [readReg, writeCfg]
  · exact readReg_withCfg s _ hq

theorem cfgWritable_iff {s : State} : cfgWritable s = true ↔ s.drv.status = .idle ∨ s.drv.status = .done := by
  simp [cfgWritable]

/-- A configuration write is the write of the configuration where it is writable, and nothing elsewhere. -/
theorem step_of_cfgWrite {s : State} {r : HostReg} {v : Word} {rest : List HostEntry} (hr : IsCfg r)
    (h : HostTurn s (.write 32 (regOffset r) v) rest) :
    step s = .next (if cfgWritable s then (s.withHost rest).withCfg (writeCfg s.cfg r v) else s.withHost rest) := by
  have hctrl : r ≠ .ctrl := by rintro rfl; exact absurd hr (by decide)
  have hsel : r ≠ .blkSel := by rintro rfl; exact absurd hr (by decide)
  rw [step_of_regWrite hctrl h, writeReg_of_ne_blkSel _ v hsel]
  rfl

/-- Settles O10: by the register's rule for a write, and the reads of the configuration after it. -/
theorem configWritesInIdleAndDoneOnly : Obligations.ConfigWritesInIdleAndDoneOnly := by
  intro s r v rest hr h
  have hstep := step_of_cfgWrite hr h
  refine ⟨fun hs => ⟨writeCfg s.cfg r v, ?_, ?_, fun q hq => ?_⟩, fun hs => ?_⟩
  · rw [hstep, if_pos (cfgWritable_iff.2 hs)]
    rfl
  · rw [regRead_regOffset]
    exact readReg_writeCfg_same (s.withHost rest) v hr
  · rw [regRead_regOffset, regRead_regOffset]
    exact (readReg_writeCfg_other (s.withHost rest) v hq).trans (readReg_withHost s rest q)
  · rw [hstep, if_neg (mt cfgWritable_iff.1 hs)]

/-! ## ERROR -/

/-- The core's registers but BLK_SEL, and the parameters, are those of `s`. -/
def SameCore (s t : State) : Prop :=
  t.drv = s.drv ∧ t.cfg = s.cfg ∧ t.load = s.load ∧ t.stream = s.stream ∧ t.env = s.env ∧ t.params = s.params

theorem SameCore.refl (s : State) : SameCore s s := ⟨rfl, rfl, rfl, rfl, rfl, rfl⟩

/-- An outcome that answers no state but one with the core of `s`. -/
def KeepsCore (s : State) (o : Host.Outcome State Fault Refusal) : Prop := ∀ t, o = .next t → SameCore s t

theorem keepsCore_next {s t : State} : KeepsCore s (.next t) ↔ SameCore s t := by simp [KeepsCore]

theorem keepsCore_refused (s : State) (r : Refusal) : KeepsCore s (.refused r) := by simp [KeepsCore]

/-- In ERROR a command is ignored (43_playback_driver.md R200). -/
theorem exec_decodeCmd_error (c : BitVec 2) {s : State} (hs : s.drv.status = .error) :
    exec (decodeCmd c) s = .next s := by
  rcases Invariant.decodeCmd_cases c with h | h | h | h <;>
    simp [h, exec, execNop, execStart, execPull, execCmdReserved, hs]

/-- A command is ignored and the configuration is not writable in ERROR; a read, a source write and a
write to BLK_SEL are not about the core. -/
theorem hostAction_keepsCore {op : HostOp} {s : State} (hs : s.drv.status = .error) (hop : op ≠ .reset) :
    KeepsCore s (outcomeOf (hostAction op s)) := by
  rcases hostAction_cases op s with
    ⟨r, h⟩ | ⟨v, h⟩ | ⟨hr, -⟩ | ⟨a, b, -, -, h⟩ | ⟨c, hw, -⟩ | ⟨x, h⟩ | h | ⟨w, -, h⟩
  · rw [h]
    exact keepsCore_refused s r
  · rw [h]
    exact keepsCore_next.2 (SameCore.refl s)
  · exact absurd hr hop
  · rw [h]
    exact keepsCore_next.2 (SameCore.refl s)
  · simp [cfgWritable_iff, hs] at hw
  · rw [h]
    exact keepsCore_next.2 (SameCore.refl s)
  · rw [h]
    exact keepsCore_next.2 (SameCore.refl s)
  · rw [h, outcomeOf, decodeCtrl, exec_decodeCmd_error _ hs]
    exact keepsCore_next.2 (SameCore.refl s)

/-- Settles O48: by whose turn it is; LOADING and a reset apart, each turn leaves the core as it is. -/
theorem errorIsSticky : Obligations.ErrorIsSticky := by
  intro s t hs h hreset
  have hl : s.drv.status ≠ .loading := by simp [hs]
  suffices hkeep : KeepsCore s (step s) from hkeep t h
  rcases turn_cases s with ⟨u, hload, -⟩ | ⟨op, rest, ht⟩ | ⟨-, c, cs, hc⟩ | ⟨-, hheld, hhost⟩
  · exact absurd hload hl
  · rw [step_of_hostTurn ht]
    exact hostAction_keepsCore (s := s.withHost rest) hs fun hop => hreset rest (hop ▸ ht)
  · rw [step_of_held hl hc, exec_decodeCmd_error c (s := s.withHeld cs) hs]
    exact keepsCore_next.2 (SameCore.refl s)
  · rw [step_of_waiting hl hheld hhost]
    exact keepsCore_next.2 (SameCore.refl s)

/-! ## The commands -/

theorem decodeCtrl_setWidth (c : BitVec 2) : decodeCtrl (c.setWidth 32) = decodeCmd c := by
  revert c
  decide

/-- Settles O54: the host's turn for a written command, the held command's turn for a held one. -/
theorem stepRunsTheCommand : Obligations.StepRunsTheCommand := by
  refine ⟨fun s w i rest ht hi => ?_, fun s c cs i hs hc hi => ?_⟩
  · obtain rfl : decodeCtrl w = i := Except.ok.inj hi
    exact step_of_write (offset := 0x00) rfl ht
  · obtain rfl : decodeCtrl (c.setWidth 32) = i := Except.ok.inj hi
    rw [step_of_held hs hc, decodeCtrl_setWidth]

end Sys2Proof.Proofs.Registers

/-! # 20_memory.md: reads have no side effect, the fetch of a block, and the only fault -/

namespace Sys2Proof.Proofs.MemoryAccess

open Sys2Proof.Machine Sys2Proof.Statements

/-! ## Ordering: one access or one LOAD step at a time -/

/-- Settles O8: the host's turn, with an aligned 32-bit read. -/
theorem readsChangeNothing : Obligations.ReadsChangeNothing :=
  fun _ _ _ ha h => Registers.step_of_read ha h

/-- With no count reached and 9 bytes left, the LOAD step fetches a block (40_block_decoder.md R111). -/
theorem loadAction_eq_fetchBlock {s : State}
    (hcount : ¬ (s.cfg.endovr.present = true ∧ s.load.nblk = s.cfg.endovr.count))
    (hlen : s.load.ldPtr.toNat + 9 ≤ s.cfg.srclen.toNat) : loadAction s = fetchBlock s := by
  have hnotReached : ¬ countReached s = true := by simpa [countReached] using hcount
  have hnotExhausted : ¬ sourceExhausted s = true := by simpa [sourceExhausted] using hlen
  rw [loadAction, if_neg hnotReached, if_neg hnotExhausted]

/-- The fetch runs what the 9 bytes at `LD_PTR` decode to (40_block_decoder.md R114). -/
theorem fetchBlock_eq_run {s : State} {i : Instr} (hlen : s.load.ldPtr.toNat + 9 ≤ s.cfg.srclen.toNat)
    (hi : decode (.block ((List.range 9).map fun k => s.src.read (s.load.ldPtr.toNat + k))) = .ok i) :
    fetchBlock s = .run i s := by
  simp only [fetchBlock, memReadBytes_eq s _ 9 hlen, hi]

/-- Settles O55: on the core's turn the LOAD step fetches, and the fetch runs the block. -/
theorem stepRunsTheFetchedBlock : Obligations.StepRunsTheFetchedBlock := by
  intro s t i ht hcount hlen hi
  rw [step_of_loadTurn ht, loadAction_eq_fetchBlock hcount hlen, fetchBlock_eq_run hlen hi]
  rfl

/-! ## The only fault: a PULL that loops to a block outside the store -/

/-- An outcome that is a fault only on an exhausted stream, and only if PLAY in `s` has a loop index
outside the store. -/
def FaultsOnBadLoop (s : State) (o : Host.Outcome State Fault Refusal) : Prop :=
  ∀ f, o = .fault f → f = .streamExhausted ∧ ¬ s.loopInRange

@[simp] theorem faultsOnBadLoop_next (s t : State) : FaultsOnBadLoop s (.next t) := by simp [FaultsOnBadLoop]

@[simp] theorem faultsOnBadLoop_refused (s : State) (r : Refusal) : FaultsOnBadLoop s (.refused r) := by
  simp [FaultsOnBadLoop]

/-- DecodeNext with a sample left is no fault (41_sample_stream.md R148). -/
theorem pullSample_ne_fault {s : State} (hnext : hasNext s = true) (f : Fault) : pullSample s ≠ .fault f := by
  rcases pullSample_cases s with ⟨hn, -⟩ | ⟨-, v, -, ⟨-, h⟩ | ⟨-, h⟩⟩
  · simp [hnext] at hn
  · simp [h]
  · simp [h]

/-- A PULL decodes with a sample left, or after a loop; a loop index inside the store gives a sample
(43_playback_driver.md R207). -/
theorem pullStep_faultsOnBadLoop {s : State} (hplay : s.drv.status = .play) : FaultsOnBadLoop s (pullStep s) := by
  intro f hf
  unfold pullStep at hf
  split at hf
  · rename_i hnext
    exact absurd hf (pullSample_ne_fault hnext f)
  · split at hf
    · rename_i hagain
      have hpres : s.cfg.loop.present = true := (Bool.and_eq_true_iff.1 hagain).1
      rcases pullSample_cases (loopTo s.cfg.loop.index s) with ⟨hn, h⟩ | ⟨hn, -⟩
      · rw [h] at hf
        cases hf
        exact ⟨rfl, fun hloop => absurd (hasNext_iff.2 (hloop hplay hpres)) (by simpa [hasNext] using hn)⟩
      · exact absurd hf (pullSample_ne_fault hn f)
    · cases hf

/-- Of the commands only a PULL in PLAY can fault. -/
theorem exec_decodeCmd_faultsOnBadLoop (c : BitVec 2) (s : State) : FaultsOnBadLoop s (exec (decodeCmd c) s) := by
  rcases Invariant.decodeCmd_cases c with h | h | h | h <;> rw [h, exec]
  · unfold execNop
    split <;> simp
  · unfold execStart
    split <;> simp
  · cases hs : s.drv.status with
    | play => simpa [execPull, hs] using pullStep_faultsOnBadLoop hs
    | idle | loading | done | error => simp [execPull, hs]
  · unfold execCmdReserved
    split <;> simp

theorem execParseBlock_ne_fault (range : BitVec 4) (filter : BitVec 2) (loop ends : Bool)
    (nibbles : List (BitVec 4)) (s : State) (f : Fault) :
    execParseBlock range filter loop ends nibbles s ≠ .fault f := by
  unfold execParseBlock
  split
  · nofun
  · split <;> nofun

/-- A LOAD step reads inside SRC and what it reads is a block (20_memory.md R61, 40_block_decoder.md R114). -/
theorem loadAction_ne_fault (s : State) (f : Fault) : outcomeOf (loadAction s) ≠ .fault f := by
  rcases loadAction_cases s with ⟨h, -⟩ | ⟨h, -⟩ | ⟨-, -, range, filter, loop, ends, nibbles, -, h⟩ <;> rw [h]
  · nofun
  · nofun
  · exact execParseBlock_ne_fault range filter loop ends nibbles s f

/-- Of the host's actions only a command can fault. -/
theorem hostAction_faultsOnBadLoop (op : HostOp) (s : State) : FaultsOnBadLoop s (outcomeOf (hostAction op s)) := by
  rcases hostAction_cases op s with
    ⟨r, h⟩ | ⟨v, h⟩ | ⟨-, h⟩ | ⟨a, b, -, -, h⟩ | ⟨c, -, h⟩ | ⟨x, h⟩ | h | ⟨w, -, h⟩ <;> rw [h]
  · exact faultsOnBadLoop_refused s r
  · exact faultsOnBadLoop_next s _
  · exact faultsOnBadLoop_next s _
  · exact faultsOnBadLoop_next s _
  · exact faultsOnBadLoop_next s _
  · exact faultsOnBadLoop_next s _
  · exact faultsOnBadLoop_next s _
  · exact exec_decodeCmd_faultsOnBadLoop (w.extractLsb' 0 2) s

/-- The one fault of a step, and the one state in which it comes, by whose turn it is. -/
theorem step_faultsOnBadLoop (s : State) : FaultsOnBadLoop s (step s) := by
  rcases turn_cases s with ⟨t, ht⟩ | ⟨op, rest, ht⟩ | ⟨hl, c, cs, hc⟩ | ⟨hl, hheld, hhost⟩
  · rw [step_of_loadTurn ht]
    exact fun f hf => absurd hf (loadAction_ne_fault t f)
  · rw [step_of_hostTurn ht]
    exact hostAction_faultsOnBadLoop op (s.withHost rest)
  · rw [step_of_held hl hc]
    exact exec_decodeCmd_faultsOnBadLoop c (s.withHeld cs)
  · rw [step_of_waiting hl hheld hhost]
    exact faultsOnBadLoop_next s s

/-- Settles O50: no turn of the core or the host raises another fault. -/
theorem blockFetchNeverFaults : Obligations.BlockFetchNeverFaults :=
  fun s f hf => (step_faultsOnBadLoop s f hf).1

/-- Settles O51: the invariant holds the loop index inside the store in PLAY. -/
theorem noFaultFromInvariant : Obligations.NoFaultFromInvariant := by
  intro s hs f hf
  obtain ⟨-, -, -, -, -, hloop, -⟩ := hs
  exact (step_faultsOnBadLoop s f hf).2 hloop

end Sys2Proof.Proofs.MemoryAccess

/-! # 30_encoding.md: the decoder and the encoder, and the operations that LOAD, START and PULL decode -/

namespace Sys2Proof.Proofs.Encoding

open Sys2Proof.Machine Sys2Proof.Statements

/-! ## Blocks -/

/-- Two nibbles share a data byte (30_encoding.md R82). -/
theorem packNibbles_length {k : Nat} {ns : List (BitVec 4)} (h : ns.length = 2 * k) :
    (packNibbles ns).length = k := by
  have hunpack := unpackNibbles_length (packNibbles ns)
  rw [unpackNibbles_packNibbles k ns h] at hunpack
  omega

/-- Data byte `k` holds nibbles `2k` and `2k + 1`, high then low (30_encoding.md R82). -/
theorem unpackNibbles_getD {ds : List Byte} {k : Nat} (hk : k < ds.length) :
    (unpackNibbles ds).getD (2 * k) 0 = ds[k].extractLsb' 4 4 ∧
    (unpackNibbles ds).getD (2 * k + 1) 0 = ds[k].extractLsb' 0 4 := by
  induction ds generalizing k with
  | nil => simp at hk
  | cons d ds ih =>
    cases k with
    | zero => exact ⟨rfl, rfl⟩
    | succ k => exact ih (Nat.lt_of_succ_lt_succ hk)

/-- A header and 8 data bytes are a block, whatever they hold (30_encoding.md R80). -/
theorem decodeBlock_cons {h : Byte} {ds : List Byte} (hlen : ds.length = 8) :
    decodeBlock (h :: ds) =
      .ok (.parseBlock (headerRange h) (headerFilter h) (headerLoop h) (headerEnd h) (unpackNibbles ds)) := by
  match ds, hlen with
  | [_, _, _, _, _, _, _, _], _ => rfl

/-- Nothing else is: no block is shorter or longer (30_encoding.md R80). -/
theorem block_of_decodeBlock {bytes : List Byte} {i : Instr} (hi : decodeBlock bytes = .ok i) :
    ∃ h ds, bytes = h :: ds ∧ ds.length = 8 ∧
      i = .parseBlock (headerRange h) (headerFilter h) (headerLoop h) (headerEnd h) (unpackNibbles ds) := by
  match bytes, hi with
  | [h, _, _, _, _, _, _, _, _], hi => exact ⟨h, _, rfl, rfl, (Except.ok.inj hi).symm⟩

/-! ## Header bytes -/

/-- A header byte selects the filter of its filter field (30_encoding.md R91). -/
theorem decodeHeader_cases (h : Byte) :
    (headerFilter h = 0 ∧ decodeHeader h = .filter0 (headerRange h) (headerLoop h) (headerEnd h)) ∨
    (headerFilter h = 1 ∧ decodeHeader h = .filter1 (headerRange h) (headerLoop h) (headerEnd h)) ∨
    (headerFilter h = 2 ∧ decodeHeader h = .filter2 (headerRange h) (headerLoop h) (headerEnd h)) ∨
    (headerFilter h = 3 ∧ decodeHeader h = .filter3 (headerRange h) (headerLoop h) (headerEnd h)) := by
  revert h
  decide

/-- The filter field packed into a header byte selects the filter (30_encoding.md R81, R91). -/
theorem decodeHeader_packHeader (r : BitVec 4) (l e : Bool) :
    decodeHeader (packHeader r 0 l e) = .filter0 r l e ∧ decodeHeader (packHeader r 1 l e) = .filter1 r l e ∧
    decodeHeader (packHeader r 2 l e) = .filter2 r l e ∧ decodeHeader (packHeader r 3 l e) = .filter3 r l e := by
  revert r l e
  decide

theorem encode_decodeHeader (h : Byte) : encode (decodeHeader h) = .header h := by
  have hfields := packHeader_fields h
  rcases decodeHeader_cases h with ⟨hf, hd⟩ | ⟨hf, hd⟩ | ⟨hf, hd⟩ | ⟨hf, hd⟩ <;> rw [hf] at hfields <;>
    rw [hd, encode, hfields]

/-! ## Gain bytes -/

theorem decodeGain_direct (level : BitVec 7) : decodeGain (0#1 ++ level) = .gainDirect level := by
  revert level
  decide

/-- A gain byte with bit 7 clear is a direct level (30_encoding.md R86). -/
theorem decodeGain_of_direct {g : Byte} (h : g.getLsbD 7 = false) :
    decodeGain g = .gainDirect (g.extractLsb' 0 7) := by
  simp only [decodeGain, h]

/-- The mode of a Gain-Custom byte selects its step (30_encoding.md R88). -/
theorem decodeGain_packCustomGain (rate : BitVec 5) :
    decodeGain (packCustomGain 0 rate) = .gainLinearDecrease rate ∧
    decodeGain (packCustomGain 1 rate) = .gainExponentialDecrease rate ∧
    decodeGain (packCustomGain 2 rate) = .gainLinearIncrease rate ∧
    decodeGain (packCustomGain 3 rate) = .gainBentIncrease rate := by
  revert rate
  decide

theorem encode_decodeGain (g : Byte) : encode (decodeGain g) = .gain g := by
  revert g
  decide

/-- A gain byte with bit 7 set is its mode and rate (30_encoding.md R86). -/
theorem packCustomGain_fields {g : Byte} (h : g.getLsbD 7 = true) :
    packCustomGain (g.extractLsb' 5 2) (g.extractLsb' 0 5) = g := by
  revert g
  decide

/-! ## ADSR words -/

/-- The fields of a word laid out as the ADSR word (30_encoding.md R84): each is reached past the ones
below it. -/
theorem adsrLayout_fields (enabled : Bool) (decayRate : BitVec 3) (attackRate : BitVec 4)
    (sustainLevel : BitVec 3) (sustainRate : BitVec 5) :
    let w := BitVec.ofBool enabled ++ decayRate ++ attackRate ++ sustainLevel ++ sustainRate
    w.getLsbD 15 = enabled ∧ w.extractLsb' 12 3 = decayRate ∧ w.extractLsb' 8 4 = attackRate ∧
    w.extractLsb' 5 3 = sustainLevel ∧ w.extractLsb' 0 5 = sustainRate := by
  refine ⟨?_, ?_, ?_, ?_, BitVec.extractLsb'_append_eq_right⟩
  · simp only [BitVec.getLsbD_append]
    simp
  all_goals
    repeat rw [BitVec.extractLsb'_append_eq_of_le (by decide)]
    exact BitVec.extractLsb'_append_eq_right

theorem decodeAdsr_packAdsr (enabled : Bool) (decayRate : BitVec 3) (attackRate : BitVec 4)
    (sustainLevel : BitVec 3) (sustainRate : BitVec 5) :
    decodeAdsr (packAdsr enabled decayRate attackRate sustainLevel sustainRate) =
      .adsr enabled decayRate attackRate sustainLevel sustainRate :=
  (Instr.adsr.injEq ..).mpr (adsrLayout_fields enabled decayRate attackRate sustainLevel sustainRate)

/-- Bits 15 to 0 of an ADSR word, cut at its fields, stand side by side. -/
theorem packAdsr_fields (a : BitVec 16) :
    packAdsr (a.getLsbD 15) (a.extractLsb' 12 3) (a.extractLsb' 8 4) (a.extractLsb' 5 3) (a.extractLsb' 0 5) = a := by
  have hbit : BitVec.ofBool (a.getLsbD 15) = a.extractLsb' 15 1 := by
    apply BitVec.eq_of_getLsbD_eq
    simp
  have hjoin : a.extractLsb' 15 1 ++ a.extractLsb' 12 3 ++ a.extractLsb' 8 4 ++ a.extractLsb' 5 3 ++
      a.extractLsb' 0 5 = a.extractLsb' 0 (1 + 3 + 4 + 3 + 5) := by
    rw [BitVec.extractLsb'_append_extractLsb'_eq_extractLsb' (show 15 = 12 + 3 from rfl),
      BitVec.extractLsb'_append_extractLsb'_eq_extractLsb' (show 12 = 8 + 4 from rfl),
      BitVec.extractLsb'_append_extractLsb'_eq_extractLsb' (show 8 = 5 + 3 from rfl),
      BitVec.extractLsb'_append_extractLsb'_eq_extractLsb' (show 5 = 0 + 5 from rfl)]
  rw [packAdsr, hbit]
  exact hjoin.trans BitVec.extractLsb'_eq_self

/-! ## Phases, commands and the PRESENT bits -/

theorem encode_decodePhase (p : BitVec 2) : encode (decodePhase p) = .phase p := by
  revert p
  decide

/-- ENV_DEFAULT is the instruction of two PRESENT bits that are 0, and of no other pair (30_encoding.md R91). -/
theorem decode_config_eq_ok_iff {adsrPresent gainPresent : Bool} {i : Instr} :
    decode (.config adsrPresent gainPresent) = .ok i ↔
      adsrPresent = false ∧ gainPresent = false ∧ i = .envDefault := by
  cases adsrPresent <;> cases gainPresent <;> simp [decode, eq_comm]

/-! ## Every input -/

/-- Only a block can be ill formed. -/
theorem wellFormed_of_not_block {i : Instr} (h : ∀ bytes, encode i ≠ .block bytes) : i.wellFormed = true := by
  cases i with
  | parseBlock => exact absurd rfl (h _)
  | _ => rfl

/-- Settles O1: by the formats, each packing its fields and reading them back. -/
theorem decodeUndoesEncode : Obligations.DecodeUndoesEncode := by
  intro i hwf
  cases i with
  | parseBlock range filter loop ends nibbles =>
    have hlen : nibbles.length = 2 * 8 := by simpa [Instr.wellFormed] using hwf
    rw [encode, decode, decodeBlock_cons (packNibbles_length hlen), unpackNibbles_packNibbles 8 nibbles hlen,
      headerRange_packHeader, headerFilter_packHeader, headerLoop_packHeader, headerEnd_packHeader]
  | filter0 | filter1 | filter2 | filter3 => simp only [encode, decode, decodeHeader_packHeader]
  | gainDirect level => exact congrArg Except.ok (decodeGain_direct level)
  | gainLinearDecrease | gainExponentialDecrease | gainLinearIncrease | gainBentIncrease =>
    simp only [encode, decode, decodeGain_packCustomGain]
  | adsr enabled decayRate attackRate sustainLevel sustainRate =>
    exact congrArg Except.ok (decodeAdsr_packAdsr enabled decayRate attackRate sustainLevel sustainRate)
  | adsrAttack | adsrDecay | adsrSustain | adsrRelease | envDefault | nop | start | pull | cmdReserved => rfl

/-- Settles O2: by the formats, each input being the packing of the fields read from it. -/
theorem encodeUndoesDecode : Obligations.EncodeUndoesDecode := by
  intro inp i hi
  cases inp with
  | block bytes =>
    obtain ⟨h, ds, rfl, hlen, rfl⟩ := block_of_decodeBlock hi
    refine ⟨by simp [Instr.wellFormed, unpackNibbles_length, hlen], fun _ => ?_⟩
    rw [encode, packHeader_fields, packNibbles_unpackNibbles]
  | header h =>
    obtain rfl : decodeHeader h = i := Except.ok.inj hi
    exact ⟨wellFormed_of_not_block (by simp [encode_decodeHeader]), fun _ => encode_decodeHeader h⟩
  | gain g =>
    obtain rfl : decodeGain g = i := Except.ok.inj hi
    exact ⟨wellFormed_of_not_block (by simp [encode_decodeGain]), fun _ => encode_decodeGain g⟩
  | adsr a =>
    obtain rfl : decodeAdsr a = i := Except.ok.inj hi
    exact ⟨rfl, fun _ => congrArg Input.adsr (packAdsr_fields a)⟩
  | phase p =>
    obtain rfl : decodePhase p = i := Except.ok.inj hi
    exact ⟨wellFormed_of_not_block (by simp [encode_decodePhase]), fun _ => encode_decodePhase p⟩
  | config adsrPresent gainPresent =>
    obtain ⟨rfl, rfl, rfl⟩ := decode_config_eq_ok_iff.1 hi
    exact ⟨rfl, fun _ => rfl⟩
  | ctrl w =>
    obtain rfl : decodeCtrl w = i := Except.ok.inj hi
    refine ⟨?_, fun hw => absurd rfl (hw w)⟩
    rcases Invariant.decodeCmd_cases (w.extractLsb' 0 2) with h | h | h | h <;> rw [decodeCtrl, h] <;> rfl

/-- Settles O3: only a block and the PRESENT pair can be rejected. -/
theorem decodeAcceptsExactlyTheInstructions : Obligations.DecodeAcceptsExactlyTheInstructions := by
  intro inp
  cases inp with
  | block bytes =>
    constructor
    · rintro ⟨i, hi⟩
      obtain ⟨h, ds, rfl, hlen, -⟩ := block_of_decodeBlock hi
      exact congrArg Nat.succ hlen
    · intro hlen
      cases bytes with
      | nil => simp at hlen
      | cons h ds => exact ⟨_, decodeBlock_cons (Nat.succ.inj hlen)⟩
  | config adsrPresent gainPresent => simp [decode_config_eq_ok_iff]
  | header | gain | adsr | phase | ctrl => exact ⟨fun _ => trivial, fun _ => ⟨_, rfl⟩⟩

/-! ## Blocks parsed by a LOAD step -/

theorem loadComplete_eq (s : State) : loadComplete s = completedState s := by
  by_cases h : s.cfg.loop.present = true ∧ s.load.nblk.toNat ≤ s.cfg.loop.index.toNat
  · have hl : loopOutOfRange s = true := by simpa [loopOutOfRange] using h
    rw [loadComplete, if_pos hl, completedState, if_pos h]
    rfl
  · have hl : ¬ loopOutOfRange s = true := by simpa [loopOutOfRange] using h
    rw [loadComplete, if_neg hl, completedState, if_neg h]
    rfl

/-- PARSE_BLOCK with room in the store (40_block_decoder.md R111, R115). -/
theorem execParseBlock_of_room {s : State} (range : BitVec 4) (filter : BitVec 2) (loop ends : Bool)
    (nibbles : List (BitVec 4)) (hroom : s.load.nblk.toNat ≠ s.params.maxBlocks) :
    execParseBlock range filter loop ends nibbles s =
      .next (if ends = true then completedState (keepBlock (blockRecord range filter loop ends nibbles) s)
        else keepBlock (blockRecord range filter loop ends nibbles) s) := by
  have hnotFull : ¬ storeFull s = true := by simpa [storeFull] using hroom
  rw [execParseBlock, if_neg hnotFull, loadComplete_eq]
  split <;> rfl

/-- The data bytes of the block at `LD_PTR` (30_encoding.md R80). -/
def dataBytes (s : State) : List Byte := (List.range 8).map fun k => s.src.read (s.load.ldPtr.toNat + 1 + k)

@[simp] theorem dataBytes_length (s : State) : (dataBytes s).length = 8 := by simp [dataBytes]

@[simp] theorem dataBytes_getElem (s : State) {k : Nat} (hk : k < (dataBytes s).length) :
    (dataBytes s)[k] = s.src.read (s.load.ldPtr.toNat + 1 + k) := by simp [dataBytes]

/-- The 9 bytes at `LD_PTR` are a header and the data bytes. -/
theorem blockBytes_eq (s : State) :
    ((List.range 9).map fun k => s.src.read (s.load.ldPtr.toNat + k)) =
      s.src.read s.load.ldPtr.toNat :: dataBytes s := by
  rw [List.range_succ_eq_map (n := 8)]
  simp [dataBytes, Nat.add_assoc, Nat.add_comm 1]

/-- The record of the header `h` and the data bytes `ds` (40_block_decoder.md R114). -/
def parsedRecord (h : Byte) (ds : List Byte) : BlockRec :=
  blockRecord (headerRange h) (headerFilter h) (headerLoop h) (headerEnd h) (unpackNibbles ds)

/-- On the core's turn, with no count reached, 9 bytes left and room in the store, the LOAD step keeps the
record of the bytes at `LD_PTR` (40_block_decoder.md R111, R114 to R116). -/
theorem step_of_fetchedBlock {s t : State} (ht : LoadTurn s t)
    (hcount : ¬ (t.cfg.endovr.present = true ∧ t.load.nblk = t.cfg.endovr.count))
    (hlen : t.load.ldPtr.toNat + 9 ≤ t.cfg.srclen.toNat) (hroom : t.load.nblk.toNat ≠ t.params.maxBlocks) :
    let r := parsedRecord (t.src.read t.load.ldPtr.toNat) (dataBytes t)
    step s = .next (if r.ends = true then completedState (keepBlock r t) else keepBlock r t) := by
  have hdecode := decodeBlock_cons (h := t.src.read t.load.ldPtr.toNat) (dataBytes_length t)
  rw [← blockBytes_eq] at hdecode
  exact (MemoryAccess.stepRunsTheFetchedBlock s t _ ht hcount hlen hdecode).trans
    (execParseBlock_of_room _ _ _ _ _ hroom)

/-- Settles O14: the step by `step_of_fetchedBlock`, the nibbles by `unpackNibbles_getD`, the store by
read after write. -/
theorem loadStepParsesTheBlock : Obligations.LoadStepParsesTheBlock := by
  intro s t ht hcount hlen hroom
  refine ⟨parsedRecord (t.src.read t.load.ldPtr.toNat) (dataBytes t), rfl, rfl, rfl, rfl, fun k => ?_, _,
    readBlk_writeBlk_same t.load.blk t.load.nblk.toNat _, fun j hj => readBlk_writeBlk_other _ _ hj,
    step_of_fetchedBlock ht hcount hlen hroom⟩
  have hk := unpackNibbles_getD (ds := dataBytes t) (k := k) (by simp)
  rw [dataBytes_getElem] at hk
  rwa [parsedRecord, blockRecord_nib, blockRecord_nib]

/-! ## The operations of a PULL -/

/-- A header row is DecodeNext with the header's filter and range (41_sample_stream.md R131). -/
theorem exec_decodeHeader (h : Byte) (s : State) :
    exec (decodeHeader h) s = decodeOutcome (decodeWith (headerFilter h) (headerRange h) s) := by
  rcases decodeHeader_cases h with ⟨hf, hd⟩ | ⟨hf, hd⟩ | ⟨hf, hd⟩ | ⟨hf, hd⟩ <;> rw [hf, hd] <;> rfl

/-- The header of the block at the cursor selects that block's DecodeNext. -/
theorem exec_decodeHeader_currentBlock (s : State) :
    exec (decodeHeader (recordHeader (currentBlock s))) s = decodeOutcome (decodeNext s) := by
  rw [exec_decodeHeader, recordHeader, headerFilter_packHeader, headerRange_packHeader, decodeNext]

/-- DecodeNext stays in PLAY only with a sample, and it writes the stream alone (41_sample_stream.md R138). -/
theorem decodeNext_of_play {s t : State} (h : decodeOutcome (decodeNext s) = .next t) (ht : t.drv.status = .play) :
    decodeNext s = .sample t ∧ t.env = s.env ∧ t.params = s.params := by
  rcases decodeWith_cases (currentBlock s).filter (currentBlock s).range s with
    ⟨-, hd⟩ | ⟨-, v, -, ⟨-, hd⟩ | ⟨-, hd⟩⟩ <;> rw [decodeNext, hd] at h ⊢ <;> cases h
  · exact ⟨rfl, rfl, rfl⟩
  · simp at ht

/-- The two bits of a phase or of a gain mode (10_state.md R23). -/
theorem phase_cases (p : BitVec 2) : p = 0 ∨ p = 1 ∨ p = 2 ∨ p = 3 := by
  revert p
  decide

/-- The Gain-Custom byte in force selects the Advance of its mode (42_envelope.md R175). -/
theorem exec_decodeGain_advances {s : State} (hk : s.env.kind = .gainCustom) :
    exec (decodeGain (packCustomGain s.env.phase s.env.gainRate)) s =
      .next (s.withEnv (advanceEnv s.params.rateTable s.env)) := by
  obtain ⟨h0, h1, h2, h3⟩ := decodeGain_packCustomGain s.env.gainRate
  rcases phase_cases s.env.phase with hp | hp | hp | hp <;> rw [hp, advanceEnv, hk, hp]
  · rw [h0]; rfl
  · rw [h1]; rfl
  · rw [h2]; rfl
  · rw [h3]; rfl

/-- The ADSR phase in force selects its Advance (42_envelope.md R168). -/
theorem exec_decodePhase_advances {s : State} (hk : s.env.kind = .adsr) :
    exec (decodePhase s.env.phase) s = .next (s.withEnv (advanceEnv s.params.rateTable s.env)) := by
  rcases phase_cases s.env.phase with hp | hp | hp | hp <;> rw [hp, advanceEnv, hk, hp] <;> rfl

/-- The envelope's input, if it has one, decodes to its Advance (42_envelope.md R168, R175). -/
theorem exec_envelopeInput {s : State} {inp : Input} {j : Instr} (hinp : envelopeInput s.env = some inp)
    (hj : decode inp = .ok j) : exec j s = .next (s.withEnv (advanceEnv s.params.rateTable s.env)) := by
  cases hk : s.env.kind with
  | gainDirect => simp [envelopeInput, hk] at hinp
  | gainCustom =>
    obtain rfl : .gain (packCustomGain s.env.phase s.env.gainRate) = inp := by simpa [envelopeInput, hk] using hinp
    obtain rfl : _ = j := Except.ok.inj hj
    exact exec_decodeGain_advances hk
  | adsr =>
    obtain rfl : .phase s.env.phase = inp := by simpa [envelopeInput, hk] using hinp
    obtain rfl : _ = j := Except.ok.inj hj
    exact exec_decodePhase_advances hk

/-- Without an input the envelope is Gain-Direct, whose Advance changes nothing (42_envelope.md R175). -/
theorem advanceEnv_of_no_input {e : Env} (h : envelopeInput e = none) (table : Vector Nat 32) :
    advanceEnv table e = e := by
  cases hk : e.kind with
  | gainDirect => rw [advanceEnv, hk]
  | gainCustom | adsr => simp [envelopeInput, hk] at h

/-- A PULL in PLAY with a sample left (43_playback_driver.md R203). -/
theorem execPull_of_sample {s t : State} (hplay : s.drv.status = .play) (hnext : hasNext s = true)
    (hs : decodeNext s = .sample t) : execPull s = .next (finishPull t) := by
  simp only [execPull, hplay, pullStep, hnext, if_true, pullSample, hs]

/-- Settles O56: DecodeNext leaves the envelope and the parameters, so PULL's emit and Advance are those of
the state it decodes to. -/
theorem pullRunsFilterAndEnvelopeOperations : Obligations.PullRunsFilterAndEnvelopeOperations := by
  intro s i t hplay hnext hi hexec htplay
  obtain rfl : decodeHeader (recordHeader (currentBlock s)) = i := Except.ok.inj hi
  rw [exec_decodeHeader_currentBlock] at hexec
  obtain ⟨hsample, henv, hparams⟩ := decodeNext_of_play hexec htplay
  have hpull : exec .pull s = .next (finishPull t) := execPull_of_sample hplay (hasNext_iff.2 hnext) hsample
  rw [hpull, ← henv, ← hparams]
  refine ⟨fun hnone => ?_, fun inp j hinp hj => ?_⟩
  · rw [finishPull, advanceEnv_of_no_input hnone]
    rfl
  · exact (exec_envelopeInput (s := emitSample (scaleSample t.params.scaleRound t.stream.prev t.env.level) t)
      hinp hj).symm

/-! ## The construction of a START -/

/-- START leaves LOADING only with both checks passed, and then with the envelope constructed
(43_playback_driver.md R202, 60_exceptions.md R242). -/
theorem startSession_env {s : State} (h : (startSession s).drv.status = .loading) :
    (startSession s).env = constructEnv s.cfg s.env := by
  by_cases hrate : s.cfg.rate = 0
  · rw [startSession, if_pos hrate] at h
    cases h
  · by_cases hcount : endovrZero s = true
    · rw [startSession, if_neg hrate, if_pos hcount] at h
      cases h
    · rw [startSession, if_neg hrate, if_neg hcount]
      rfl

theorem execStart_of_waiting {s : State}
    (h : s.drv.status = .idle ∨ s.drv.status = .play ∨ s.drv.status = .done) :
    execStart s = .next (startSession s) := by
  rcases h with h | h | h <;> rw [execStart, h]

/-- ConstructCustom with its mode as a number (42_envelope.md R166). -/
theorem constructCustom_eq (mode : BitVec 2) (rate : BitVec 5) (e : Env) :
    constructCustom mode rate e =
      { e with
        kind := .gainCustom
        phase := mode
        gainRate := rate
        level := if mode.toNat < 2 then 0x7ff else 0
        cnt := 0 } := by
  rcases phase_cases mode with rfl | rfl | rfl | rfl <;> rfl

/-- The configuration selects its construction, or is a Gain-Custom byte alone (42_envelope.md R163). -/
theorem configInput_constructs {c : Cfg} {i : Instr} (hi : decode (configInput c) = .ok i) :
    (∀ s : State, exec i s = .next (s.withEnv (constructEnv c s.env))) ∨
    (c.adsr.present = false ∧ c.gain.present = true ∧ c.gain.value.getLsbD 7 = true) := by
  unfold configInput at hi
  unfold constructEnv
  cases ha : c.adsr.present with
  | true =>
    rw [if_pos ha] at hi
    obtain rfl : decodeAdsr c.adsr.value = i := Except.ok.inj hi
    exact .inl fun _ => rfl
  | false =>
    cases hg : c.gain.present with
    | false =>
      rw [ha, hg] at hi
      obtain rfl : .envDefault = i := Except.ok.inj hi
      exact .inl fun _ => rfl
    | true =>
      cases hb : c.gain.value.getLsbD 7 with
      | false =>
        rw [ha, hg] at hi
        obtain rfl : decodeGain c.gain.value = i := Except.ok.inj hi
        rw [decodeGain_of_direct hb]
        exact .inl fun _ => rfl
      | true => exact .inr ⟨rfl, rfl, rfl⟩

/-- Settles O57: START constructs; the configuration's row does the same, or R166 is written out. -/
theorem startRunsTheSelectedConstruction : Obligations.StartRunsTheSelectedConstruction := by
  intro s t i hs hstart ht hi
  obtain rfl : startSession s = t := Host.Outcome.next.inj ((execStart_of_waiting hs).symm.trans hstart)
  rw [startSession_env ht]
  rcases configInput_constructs hi with hrow | ⟨ha, hg, hb⟩
  · exact .inl ⟨_, hrow s, rfl⟩
  · have henv : constructEnv s.cfg s.env =
        constructCustom (s.cfg.gain.value.extractLsb' 5 2) (s.cfg.gain.value.extractLsb' 0 5) s.env := by
      simp [constructEnv, ha, hg, hb]
    have hinput : configInput s.cfg = .gain s.cfg.gain.value := by simp [configInput, ha, hg]
    rw [henv, hinput]
    exact .inr ⟨ha, hg, hb, congrArg (fun g => some (Input.gain g)) (packCustomGain_fields hb),
      constructCustom_eq _ _ _⟩

/-! ## Ranges of the operands -/

/-- Settles O18: the bounds hold for every code and range, and the corner values are computed. -/
theorem rawSampleBounds : Obligations.RawSampleBounds :=
  ⟨Scope.rawSample_bounds, by decide, by decide, by decide, by decide⟩

/-- Settles O27: the direct level is 16 times the field. -/
theorem directEnvelopesConstruct : Obligations.DirectEnvelopesConstruct :=
  fun _ => ⟨fun g => ⟨directLevel g, directLevel_toNat g, rfl⟩, rfl⟩

end Sys2Proof.Proofs.Encoding

/-! # 40_block_decoder.md: the LOAD step before it parses, PARSE_BLOCK, and the START that begins a LOAD -/

namespace Sys2Proof.Proofs.BlockDecoder

open Sys2Proof.Machine Sys2Proof.Statements

/-! ## The checks of a LOAD step -/

/-- The override's count is looked at first (40_block_decoder.md R111). -/
theorem loadAction_of_countReached {s : State}
    (hcount : s.cfg.endovr.present = true ∧ s.load.nblk = s.cfg.endovr.count) :
    loadAction s = .settled (.next (completedState s)) := by
  have hreached : countReached s = true := by simpa [countReached] using hcount
  rw [loadAction, if_pos hreached, Encoding.loadComplete_eq]

/-- With fewer than 9 bytes left the override permits the truncation (40_block_decoder.md R112). -/
theorem loadAction_of_sourceExhausted {s : State}
    (hcount : ¬ (s.cfg.endovr.present = true ∧ s.load.nblk = s.cfg.endovr.count))
    (hlen : s.cfg.srclen.toNat < s.load.ldPtr.toNat + 9) :
    loadAction s = .settled (.next (if s.cfg.endovr.present = true then completedState s
      else errorState .formatTruncated (s.load.ldPtr.setWidth 32) s)) := by
  have hnotReached : ¬ countReached s = true := by simpa [countReached] using hcount
  have hexhausted : sourceExhausted s = true := by simpa [sourceExhausted] using hlen
  rw [loadAction, if_neg hnotReached, if_pos hexhausted, Encoding.loadComplete_eq]
  split <;> rfl

/-- Settles O13: the two checks of `loadAction`, on the core's turn. -/
theorem loadStepStopsBeforeParsing : Obligations.LoadStepStopsBeforeParsing :=
  fun _ _ ht => ⟨
    fun hcount => (step_of_loadTurn ht).trans (congrArg outcomeOf (loadAction_of_countReached hcount)),
    fun hcount hlen => (step_of_loadTurn ht).trans (congrArg outcomeOf (loadAction_of_sourceExhausted hcount hlen))⟩

/-! ## PARSE_BLOCK -/

/-- A full store keeps no record (40_block_decoder.md R113). -/
theorem execParseBlock_of_full {s : State} (range : BitVec 4) (filter : BitVec 2) (loop ends : Bool)
    (nibbles : List (BitVec 4)) (hfull : s.load.nblk.toNat = s.params.maxBlocks) :
    execParseBlock range filter loop ends nibbles s =
      .next (errorState .capacity (s.load.ldPtr.setWidth 32) s) := by
  have hstore : storeFull s = true := by simpa [storeFull] using hfull
  rw [execParseBlock, if_pos hstore]
  rfl

/-- Settles O15: any 9 bytes are a block (30_encoding.md R92), whose PARSE_BLOCK finds the store full. -/
theorem fullStoreRaisesCapacity : Obligations.FullStoreRaisesCapacity := by
  intro s t ht hcount hlen hfull
  have hdecode := Encoding.decodeBlock_cons (h := t.src.read t.load.ldPtr.toNat) (Encoding.dataBytes_length t)
  rw [← Encoding.blockBytes_eq] at hdecode
  exact (MemoryAccess.stepRunsTheFetchedBlock s t _ ht hcount hlen hdecode).trans
    (execParseBlock_of_full _ _ _ _ _ hfull)

/-- Settles O16: the step by `execParseBlock_of_room`, the store by read after write. -/
theorem parseBlockCompletes : Obligations.ParseBlockCompletes := by
  intro s range filter loop ends nibbles hlen hroom
  have hread := readBlk_writeBlk_same s.load.blk s.load.nblk.toNat (blockRecord range filter loop ends nibbles)
  refine ⟨_, Encoding.execParseBlock_of_room range filter loop ends nibbles hroom, ?_⟩
  rw [hread]
  exact ⟨rfl, rfl, rfl, rfl, blockRecord_nib_toList hlen, fun j hj => readBlk_writeBlk_other _ _ hj⟩

/-! ## START -/

/-- The construction in the words of 42_envelope.md R163 to R167: ADSR, then gain, then the default. -/
theorem constructEnv_eq (c : Cfg) (e : Env) : constructEnv c e = constructed c e := by
  unfold constructEnv constructed
  cases c.adsr.present with
  | true => rfl
  | false =>
    cases c.gain.present with
    | false => rfl
    | true =>
      cases c.gain.value.getLsbD 7 with
      | false => rfl
      | true => exact Encoding.constructCustom_eq _ _ _

/-- Both checks of START passed (43_playback_driver.md R202, 60_exceptions.md R242). -/
theorem startSession_of_accepted {s : State} (hrate : s.cfg.rate ≠ 0)
    (hcount : ¬ (s.cfg.endovr.present = true ∧ s.cfg.endovr.count = 0)) :
    startSession s = loadInit (initSession s) := by
  have hnotZero : ¬ endovrZero s = true := by simpa [endovrZero] using hcount
  rw [startSession, if_neg hrate, if_neg hnotZero]

/-- Settles O41: the accepted session, with its construction by `constructEnv_eq`. -/
theorem startBeginsASession : Obligations.StartBeginsASession := by
  intro s hs hrate hcount
  rw [← constructEnv_eq]
  exact (Encoding.execStart_of_waiting hs).trans
    (congrArg Host.Outcome.next (startSession_of_accepted hrate hcount))

end Sys2Proof.Proofs.BlockDecoder

/-! # 41_sample_stream.md: DecodeNext with each filter, a PULL with a sample left, and the loop -/

namespace Sys2Proof.Proofs.SampleStream

open Sys2Proof.Machine Sys2Proof.Statements

/-! ## DecodeNext in the words of the statements -/

theorem rawAtCursor_eq (s : State) (range : BitVec 4) : rawAtCursor s range = rawSample (currentNibble s) range := by
  simp [rawSample, shiftRight, shiftLeft, currentNibble, nibbleValue]

/-- The history update and then the cursor (41_sample_stream.md R139, R140). -/
theorem advanceCursor_pushHistory (v : Int) (t : Stream) : advanceCursor (pushHistory v t) = streamAfter t v := by
  by_cases h : t.curNibble = 15
  · rw [advanceCursor, if_pos (show (pushHistory v t).curNibble = 15 from h), streamAfter, if_pos h, if_pos h]
    rfl
  · rw [advanceCursor, if_neg (show (pushHistory v t).curNibble ≠ 15 from h), streamAfter, if_neg h, if_neg h]
    rfl

section
variable {s : State} {filter : BitVec 2} {range : BitVec 4} {v : Int}

/-- A value that fits is kept (41_sample_stream.md R131). -/
theorem decodeWith_of_fits (hnext : s.stream.curBlock.toNat < s.load.nblk.toNat)
    (hv : filterValue filter (rawAtCursor s range) s.stream.prev s.stream.prev2 = v) (hfit : Fits s.params.histW v) :
    decodeWith filter range s = .sample (s.withStream (streamAfter s.stream v)) := by
  rw [rawAtCursor_eq] at hv
  rw [decodeWith, if_pos (hasNext_iff.2 hnext), hv, commitSample, if_pos (fitsSigned_iff.2 hfit),
    advanceCursor_pushHistory]

/-- A value that does not fit raises OVERFLOW (41_sample_stream.md R138). -/
theorem decodeWith_of_not_fits (hnext : s.stream.curBlock.toNat < s.load.nblk.toNat)
    (hv : filterValue filter (rawAtCursor s range) s.stream.prev s.stream.prev2 = v) (hfit : ¬ Fits s.params.histW v) :
    decodeWith filter range s = .raised (errorState .overflow (overflowInfo s) s) := by
  rw [rawAtCursor_eq] at hv
  rw [decodeWith, if_pos (hasNext_iff.2 hnext), hv, commitSample, if_neg (mt fitsSigned_iff.1 hfit)]
  rfl

/-- No value on an exhausted stream (41_sample_stream.md R148). -/
theorem decodeWith_of_exhausted (hend : s.load.nblk.toNat ≤ s.stream.curBlock.toNat) :
    decodeWith filter range s = .exhausted :=
  if_neg (mt hasNext_iff.1 (Nat.not_lt.2 hend))

end

/-! ## The filter rows -/

/-- Settles O19: the raw value is FILTER0's value, and the least history width holds it. -/
theorem filterZeroResult : Obligations.FilterZeroResult := by
  intro s range l e hp hnext
  have hfit : Fits s.params.histW (rawAtCursor s range) := rawAtCursor_eq s range ▸ Scope.rawSample_fits hp _ range
  exact congrArg decodeOutcome (decodeWith_of_fits (filter := 0) hnext rfl hfit)

/-- Settles O20: DecodeNext with each filter's value, which `filterValue` computes by definition. -/
theorem filterWithHistoryResults : Obligations.FilterWithHistoryResults :=
  fun _ _ _ _ hnext => ⟨
    fun hfit => congrArg decodeOutcome (decodeWith_of_fits (filter := 1) hnext rfl hfit),
    fun hfit => congrArg decodeOutcome (decodeWith_of_fits (filter := 2) hnext rfl hfit),
    fun hfit => congrArg decodeOutcome (decodeWith_of_fits (filter := 3) hnext rfl hfit)⟩

/-- Settles O22: DecodeNext gives no value, whatever the filter. -/
theorem exhaustedStreamFaults : Obligations.ExhaustedStreamFaults := by
  intro s range l e hend
  have hfault (filter : BitVec 2) : decodeOutcome (decodeWith filter range s) = .fault .streamExhausted :=
    congrArg decodeOutcome (decodeWith_of_exhausted hend)
  exact ⟨hfault 0, hfault 1, hfault 2, hfault 3⟩

/-! ## PULL with a sample left -/

/-- The value of the sample at the cursor (41_sample_stream.md R131). -/
abbrev valueAtCursor (s : State) : Int :=
  filterValue (currentBlock s).filter (rawAtCursor s (currentBlock s).range) s.stream.prev s.stream.prev2

/-- The state after a PULL whose sample `v` fits (43_playback_driver.md R203). -/
def afterSample (v : Int) (s : State) : State := finishPull (s.withStream (streamAfter s.stream v))

@[simp] theorem afterSample_load (v : Int) (s : State) : (afterSample v s).load = s.load := rfl

@[simp] theorem afterSample_stream (v : Int) (s : State) : (afterSample v s).stream = streamAfter s.stream v := rfl

/-- A value that fits is kept and emitted (43_playback_driver.md R203). -/
theorem exec_pull_of_fits {s : State} (hplay : s.drv.status = .play)
    (hnext : s.stream.curBlock.toNat < s.load.nblk.toNat) (hfit : Fits s.params.histW (valueAtCursor s)) :
    exec .pull s = .next (afterSample (valueAtCursor s) s) :=
  Encoding.execPull_of_sample hplay (hasNext_iff.2 hnext) (decodeWith_of_fits hnext rfl hfit)

/-- In PLAY with a sample left a PULL is DecodeNext and what follows it (43_playback_driver.md R203). -/
theorem exec_pull_of_hasNext {s : State} (hplay : s.drv.status = .play)
    (hnext : s.stream.curBlock.toNat < s.load.nblk.toNat) : exec .pull s = pullSample s := by
  simp only [exec, execPull, hplay, pullStep, hasNext_iff.2 hnext, if_true]

/-- A value that does not fit ends the PULL before its emit (60_exceptions.md R231). -/
theorem exec_pull_of_not_fits {s : State} (hplay : s.drv.status = .play)
    (hnext : s.stream.curBlock.toNat < s.load.nblk.toNat) (hfit : ¬ Fits s.params.histW (valueAtCursor s)) :
    exec .pull s = .next (errorState .overflow (overflowInfo s) s) := by
  rw [exec_pull_of_hasNext hplay hnext, pullSample, decodeNext, decodeWith_of_not_fits hnext rfl hfit]

/-- Settles O21: DecodeNext raises, in a filter row and in a PULL. -/
theorem filterOverflowRaises : Obligations.FilterOverflowRaises :=
  fun _ _ _ _ hnext => ⟨
    fun hfit => congrArg decodeOutcome (decodeWith_of_not_fits (filter := 1) hnext rfl hfit),
    fun hfit => congrArg decodeOutcome (decodeWith_of_not_fits (filter := 2) hnext rfl hfit),
    fun hfit => congrArg decodeOutcome (decodeWith_of_not_fits (filter := 3) hnext rfl hfit),
    fun hplay hfit => exec_pull_of_not_fits hplay hnext hfit⟩

/-- The scaler with its shift by 11 as a division (43_playback_driver.md R205). -/
theorem scaleSample_eq (r : ScaleRound) (v : Int) (level : BitVec 12) :
    scaleSample r v level =
      (match r with
      | .floor => (v * level.toNat) / 2048
      | .trunc => Int.tdiv (v * level.toNat) 2048) := by
  cases r <;> simp [scaleSample, shiftRight, truncDiv]

/-- Settles O42: `finishPull` scales `PREV`, which holds the value, by the level before the Advance. -/
theorem pullEmitsTheScaledSample : Obligations.PullEmitsTheScaledSample := by
  intro s hplay hnext v hfit
  rw [exec_pull_of_fits hplay hnext hfit, afterSample, finishPull, scaleSample_eq]
  rfl

/-! ## PULL at the end of the stream -/

/-- Settles O43: the loop decision, then the DecodeNext of the state at the loop block. -/
theorem pullLoopsKeepingHistory : Obligations.PullLoopsKeepingHistory := by
  intro s hplay hend hpres hlevel hindex
  have hnext : ¬ hasNext s = true := mt hasNext_iff.1 (Nat.not_lt.2 hend)
  have hagain : loopsAgain s = true := Bool.and_eq_true_iff.2 ⟨hpres, decide_eq_true hlevel⟩
  calc exec .pull s
      = pullSample (loopTo s.cfg.loop.index s) := by
        simp only [exec, execPull, hplay, pullStep, if_neg hnext, if_pos hagain]
    _ = exec .pull (loopTo s.cfg.loop.index s) :=
        (exec_pull_of_hasNext (s := loopTo s.cfg.loop.index s) hplay hindex).symm

/-! ## The cursor as one number -/

/-- A sample moves the cursor by one nibble, 16 to a block; below `NBLK` it does not wrap
(41_sample_stream.md R140). -/
theorem streamAfter_position {t : Stream} {n : BitVec 31} (h : t.curBlock.toNat < n.toNat) (v : Int) :
    16 * (streamAfter t v).curBlock.toNat + (streamAfter t v).curNibble.toNat =
      16 * t.curBlock.toNat + t.curNibble.toNat + 1 := by
  have hn := n.isLt
  have hnib := t.curNibble.isLt
  by_cases h15 : t.curNibble = 15
  · have hnext : (t.curBlock + 1).toNat = t.curBlock.toNat + 1 := BitVec.toNat_add_of_lt (by simp; omega)
    have hlast : t.curNibble.toNat = 15 := congrArg BitVec.toNat h15
    have hzero : (0 : BitVec 4).toNat = 0 := rfl
    simp only [if_pos h15, hnext, hzero]
    omega
  · have hlast : t.curNibble.toNat ≠ 15 := fun h => h15 (BitVec.eq_of_toNat_eq h)
    have hnext : (t.curNibble + 1).toNat = t.curNibble.toNat + 1 := BitVec.toNat_add_of_lt (by simp; omega)
    simp only [if_neg h15, hnext]
    omega

/-- A sample shortens the stream by one. -/
theorem samplesLeft_afterSample {s : State} (hnext : s.stream.curBlock.toNat < s.load.nblk.toNat) (v : Int) :
    samplesLeft (afterSample v s) + 1 = samplesLeft s := by
  have hpos := streamAfter_position hnext v
  have hnib := s.stream.curNibble.isLt
  have hnib' := (streamAfter s.stream v).curNibble.isLt
  rw [samplesLeft, samplesLeft, afterSample_load, afterSample_stream]
  omega

/-! ## The loop seam (41_sample_stream.md R147) -/

/-- Two sessions that sound the same, the second with the blocks from the first's cursor on at `d`
entries further up and its cursor there: nothing that DecodeNext reads tells them apart. -/
structure Shifted (d : Nat) (s u : State) : Prop where
  sound : SameSound s u
  params : u.params = s.params
  curNibble : u.stream.curNibble = s.stream.curNibble
  curBlock : u.stream.curBlock.toNat = s.stream.curBlock.toNat + d
  nblk : u.load.nblk.toNat = s.load.nblk.toNat + d
  blocks : ∀ j, s.stream.curBlock.toNat ≤ j → j < s.load.nblk.toNat →
    readBlk u.load.blk (j + d) = readBlk s.load.blk j

namespace Shifted
variable {d : Nat} {s u : State}

theorem hasNext_shifted (h : Shifted d s u) (hnext : s.stream.curBlock.toNat < s.load.nblk.toNat) :
    u.stream.curBlock.toNat < u.load.nblk.toNat := by
  rw [h.curBlock, h.nblk]
  omega

theorem currentBlock_eq (h : Shifted d s u) (hnext : s.stream.curBlock.toNat < s.load.nblk.toNat) :
    currentBlock u = currentBlock s := by
  rw [currentBlock, h.curBlock, h.blocks _ (Nat.le_refl _) hnext, currentBlock]

theorem valueAtCursor_eq (h : Shifted d s u) (hnext : s.stream.curBlock.toNat < s.load.nblk.toNat) :
    valueAtCursor u = valueAtCursor s := by
  obtain ⟨-, -, -, -, -, hprev, hprev2, -⟩ := h.sound
  simp only [valueAtCursor, rawAtCursor, h.currentBlock_eq hnext, h.curNibble, hprev, hprev2]

/-- Both sessions emit the same and move on together. -/
theorem afterSample_shifted (h : Shifted d s u) (hnext : s.stream.curBlock.toNat < s.load.nblk.toNat) (v : Int) :
    Shifted d (afterSample v s) (afterSample v u) := by
  obtain ⟨hstatus, hvalid, hcode, hout, hcount, hprev, hprev2, henv⟩ := h.sound
  have hnibble : (streamAfter u.stream v).curNibble = (streamAfter s.stream v).curNibble := by
    simp only [h.curNibble]
  have hpos := streamAfter_position hnext v
  have hpos' := streamAfter_position (h.hasNext_shifted hnext) v
  rw [hnibble, h.curBlock, h.curNibble] at hpos'
  have hnib := (streamAfter s.stream v).curNibble.isLt
  refine ⟨⟨hstatus, rfl, hcode, ?_, congrArg (· + 1) hcount, rfl, hprev, ?_⟩, h.params, hnibble, ?_, h.nblk,
    fun j hj => h.blocks j ?_⟩
  · exact congrArg₂ (fun (p : Params) (e : Env) => scaleSample p.scaleRound v e.level) h.params.symm henv
  · exact congrArg₂ (fun (p : Params) (e : Env) => advanceEnv p.rateTable e) h.params.symm henv
  · rw [afterSample_stream, afterSample_stream]
    omega
  · rw [afterSample_stream] at hj
    omega

/-- `ERR_INFO` is no part of the sound. -/
theorem errorState_sameSound (h : Shifted d s u) (code : ErrCode) (info info' : Word) :
    SameSound (errorState code info s) (errorState code info' u) := by
  obtain ⟨-, -, -, hout, hcount, hprev, hprev2, henv⟩ := h.sound
  exact ⟨rfl, rfl, rfl, hout, hcount, hprev, hprev2, henv⟩

end Shifted

theorem execTimes_succ_of_next {i : Instr} {s t : State} (h : exec i s = .next t) (k : Nat) :
    execTimes i (k + 1) s = execTimes i k t := by
  rw [execTimes, h]

/-- PULLs in ERROR are ignored (43_playback_driver.md R200). -/
theorem execTimes_pull_of_error {s : State} (h : s.drv.status = .error) (k : Nat) :
    execTimes .pull k s = .next s := by
  induction k with
  | zero => rfl
  | succ k ih =>
    have hpull : exec .pull s = .next s := by simp only [exec, execPull, h]
    rw [execTimes_succ_of_next hpull, ih]

theorem hasNext_of_samplesLeft_pos {s : State} (h : 0 < samplesLeft s) :
    s.stream.curBlock.toNat < s.load.nblk.toNat := by
  rw [samplesLeft] at h
  omega

/-- As long as samples are left, PULLs of shifted sessions sound the same: both emit the same sample, or both
raise OVERFLOW and stay in ERROR. -/
theorem Shifted.execTimes_pull {d k : Nat} {s u : State} (h : Shifted d s u) (hplay : s.drv.status = .play)
    (hk : k ≤ samplesLeft s) :
    ∃ t w, execTimes .pull k s = .next t ∧ execTimes .pull k u = .next w ∧ SameSound t w := by
  induction k generalizing s u with
  | zero => exact ⟨s, u, rfl, rfl, h.sound⟩
  | succ k ih =>
    have hnext := hasNext_of_samplesLeft_pos (s := s) (by omega)
    have hplay' : u.drv.status = .play := h.sound.1.symm.trans hplay
    by_cases hfit : Fits s.params.histW (valueAtCursor s)
    · have hfit' : Fits u.params.histW (valueAtCursor u) := by rwa [h.valueAtCursor_eq hnext, h.params]
      have hleft := samplesLeft_afterSample hnext (valueAtCursor s)
      rw [execTimes_succ_of_next (exec_pull_of_fits hplay hnext hfit),
        execTimes_succ_of_next (exec_pull_of_fits hplay' (h.hasNext_shifted hnext) hfit'), h.valueAtCursor_eq hnext]
      exact ih (h.afterSample_shifted hnext _) hplay (by omega)
    · have hfit' : ¬ Fits u.params.histW (valueAtCursor u) := by rwa [h.valueAtCursor_eq hnext, h.params]
      rw [execTimes_succ_of_next (exec_pull_of_not_fits hplay hnext hfit),
        execTimes_succ_of_next (exec_pull_of_not_fits hplay' (h.hasNext_shifted hnext) hfit'),
        execTimes_pull_of_error rfl, execTimes_pull_of_error rfl]
      exact ⟨_, _, rfl, rfl, h.errorState_sameSound _ _ _⟩

/-- In a store of `n` blocks followed by the blocks from `i` on once more, the copies stand `n - i` entries
further up. -/
theorem readBlk_unrolled {blk : List BlockRec} {n i j : Nat} (hn : n ≤ blk.length) (hi : i ≤ j) (hj : j < n) :
    readBlk (blk.take n ++ (blk.take n).drop i) (j + (n - i)) = readBlk blk j := by
  have hlen : (blk.take n).length = n := List.length_take_of_le hn
  have hcopy : j + (n - i) < (blk.take n ++ (blk.take n).drop i).length := by
    rw [List.length_append, List.length_drop, hlen]
    omega
  have hindex : i + (j + (n - i) - n) = j := by omega
  rw [readBlk_of_lt hcopy, readBlk_of_lt (Nat.lt_of_lt_of_le hj hn), List.getElem_append_right (by omega)]
  simp only [List.getElem_drop, List.getElem_take, hlen, hindex]

/-- Settles O24: the first PULL is the PULL at the loop block, where the session and the unrolled one are
shifted by the length of the pass. -/
theorem loopSeamContinuity : Obligations.LoopSeamContinuity := by
  intro s k n i unrolled hs hplay hpres hlevel hcur hfits hk
  obtain ⟨-, -, ⟨hstore, -⟩, ⟨-, hnibble⟩, -, hloop, -⟩ := hs
  have hindex : i < n := hloop hplay hpres
  have hend : s.stream.curBlock.toNat = n := congrArg BitVec.toNat hcur
  have hshift : Shifted (n - i) (loopTo s.cfg.loop.index s) unrolled :=
    { sound := ⟨rfl, rfl, rfl, rfl, rfl, rfl, rfl, rfl⟩
      params := rfl
      curNibble := hnibble hend
      curBlock := by
        change s.stream.curBlock.toNat = i + (n - i)
        omega
      nblk := Nat.mod_eq_of_lt hfits
      blocks := fun _ hj hjn => readBlk_unrolled hstore hj hjn }
  cases k with
  | zero => exact ⟨s, unrolled, rfl, rfl, hshift.sound⟩
  | succ k =>
    have hpull : exec .pull s = exec .pull (loopTo s.cfg.loop.index s) :=
      pullLoopsKeepingHistory s hplay hend.ge hpres hlevel hindex
    rw [execTimes, hpull]
    exact hshift.execTimes_pull hplay hk

end Sys2Proof.Proofs.SampleStream

/-! # 42_envelope.md: the counter, the steps of the envelope, and when the envelope changes -/

namespace Sys2Proof.Proofs.Envelope

open Sys2Proof.Machine Sys2Proof.Statements

/-! ## The counter -/

theorem tickCount_eq (table : Vector Nat 32) (idx : BitVec 5) (c : BitVec 12) :
    tickCount table idx c = countAfter (ratePeriod table idx) c := by
  unfold tickCount
  split
  · rfl
  · rename_i hp
    simp only [tickDue_iff, ne_eq, hp, not_false_eq_true, true_and]

section
variable {p k : Nat} {c : BitVec 12}

theorem add_one_mod_eq_ite (hp : 1 ≤ p) : (k + 1) % p = if p ≤ k % p + 1 then 0 else k % p + 1 := by
  have hlt : k % p < p := Nat.mod_lt k hp
  rw [← Nat.mod_add_mod]
  split
  · rw [show k % p + 1 = p by omega, Nat.mod_self]
  · exact Nat.mod_eq_of_lt (by omega)

/-- A register at `k mod p` ticks where `p` divides `k + 1` (42_envelope.md R161). -/
theorem ticks_iff_dvd (hp : 1 ≤ p) (hc : c.toNat = k % p) : Ticks p c ↔ p ∣ k + 1 := by
  rw [Nat.dvd_iff_mod_eq_zero, add_one_mod_eq_ite hp, Ticks, hc]
  split <;> omega

/-- Below a period of at most 2048 the register does not wrap. -/
theorem countAfter_toNat (hp : 1 ≤ p) (hle : p ≤ 2048) :
    (countAfter p c).toNat = if p ≤ c.toNat + 1 then 0 else c.toNat + 1 := by
  rw [countAfter, if_neg (by omega)]
  split
  · rfl
  · exact BitVec.toNat_add_of_lt (by simp; omega)

theorem countAfter_lt (hp : 1 ≤ p) (hle : p ≤ 2048) : (countAfter p c).toNat < p := by
  rw [countAfter_toNat hp hle]
  split <;> omega

theorem countAfter_of_mod (hp : 1 ≤ p) (hle : p ≤ 2048) (hc : c.toNat = k % p) :
    (countAfter p c).toNat = (k + 1) % p := by
  rw [countAfter_toNat hp hle, add_one_mod_eq_ite hp, hc]

end

theorem iterate_tickCount {table : Vector Nat 32} {idx : BitVec 5} (hp : 1 ≤ ratePeriod table idx)
    (hle : ratePeriod table idx ≤ 2048) (k : Nat) :
    ((tickCount table idx)^[k] 0).toNat = k % ratePeriod table idx := by
  induction k with
  | zero => rfl
  | succ k ih => rw [Function.iterate_succ_apply', tickCount_eq, countAfter_of_mod hp hle ih]

/-- Settles O25: from 0 the register holds the number of calls modulo the period. -/
theorem ticksEveryPeriod : Obligations.TicksEveryPeriod := by
  intro table idx
  refine ⟨fun hp c => ⟨?_, ?_⟩, fun hp hle => ⟨fun c => ?_, fun k => ?_⟩⟩
  · simp [tickDue, hp]
  · rw [tickCount_eq, countAfter, if_pos hp]
  · rw [tickCount_eq]
    exact countAfter_lt hp hle
  · have hcount := iterate_tickCount hp hle k
    exact ⟨hcount, tickDue_iff.trans (ticks_iff_dvd hp hcount)⟩

/-! ## The levels -/

theorem decayed_eq (l : Int) : decayed l = l - 1 - (l - 1) / 256 := rfl

theorem clamp_eq_self {l : Int} (h0 : 0 ≤ l) (h : l ≤ 0x7ff) : clamp l = l := by
  rw [clamp, max_eq_left h0, min_eq_left h]

/-- Settles O33: `(l - 1) / 256` lies between 0 and `l - 1`; the sample values are computed. -/
theorem decayStepLowers : Obligations.DecayStepLowers := by
  refine ⟨decayed_eq, by decide, by decide, fun l h1 hmax => ?_, by decide, by decide, by decide, by decide,
    by decide, by decide, by decide⟩
  have hnonneg : 0 ≤ decayed l := by rw [decayed_eq]; omega
  have hlt : decayed l < l := by rw [decayed_eq]; omega
  exact ⟨hnonneg, hlt, clamp_eq_self hnonneg (by omega)⟩

theorem attackEnds_iff (level : BitVec 12) : attackEnds level = true ↔ 0x7e0 ≤ level.toNat := decide_eq_true_iff

theorem decayEnds_iff (sustainLevel : BitVec 3) (level : BitVec 12) :
    decayEnds sustainLevel level = true ↔ level.toNat ≤ (sustainLevel.toNat + 1) * 0x100 := decide_eq_true_iff

theorem sustainEnds_iff (level : BitVec 12) : sustainEnds level = true ↔ level = 0 := decide_eq_true_iff

theorem attackIncrement_eq (a : BitVec 4) : attackIncrement a = if a = 15 then 0x400 else 0x20 := by
  simp only [attackIncrement, attackIndex_eq_iff]

/-! ## The rows: a tick, then perhaps a transition -/

section
variable (table : Vector Nat 32) (idx : BitVec 5) (f : Int → Int) (e : Env)

/-- On a tick the level is the clamped value of `f`, without one it stays (42_envelope.md R168). -/
theorem onTick_level_toInt : ((onTick table idx f e).level.toNat : Int) =
    if Ticks (ratePeriod table idx) e.cnt then clamped (f e.level.toNat) else e.level.toNat := by
  rw [onTick_level]
  simp only [tickDue_iff]
  split
  · exact clampLevel_toInt _
  · rfl

theorem onTick_eq : onTick table idx f e =
    { e with level := (onTick table idx f e).level, cnt := countAfter (ratePeriod table idx) e.cnt } := by
  rw [← tickCount_eq]
  rfl

/-- The tick and its transition as one update (42_envelope.md R162, R168). -/
theorem transition_onTick_eq {ends : BitVec 12 → Bool} {Ends : BitVec 12 → Prop} [DecidablePred Ends]
    (hends : ∀ level, ends level = true ↔ Ends level) (q : BitVec 2) :
    (if ends (onTick table idx f e).level then enterPhase q (onTick table idx f e) else onTick table idx f e) =
      { e with
        level := (onTick table idx f e).level
        phase := if Ends (onTick table idx f e).level then q else e.phase
        cnt := if Ends (onTick table idx f e).level then 0 else countAfter (ratePeriod table idx) e.cnt } := by
  by_cases h : Ends (onTick table idx f e).level
  · rw [if_pos ((hends _).2 h), if_pos h, if_pos h]
    rfl
  · rw [if_neg (mt (hends _).1 h), if_neg h, if_neg h, ← onTick_eq]

end

/-- Settles O28: a tick with ATTACK's increment, and the test of R170 on its level. -/
theorem attackStepResult : Obligations.AttackStepResult := by
  intro s p inc
  have hstep := transition_onTick_eq s.params.rateTable (attackIndex s.env.attackRate)
    (fun l => l + attackIncrement s.env.attackRate) s.env attackEnds_iff 1
  refine ⟨_, ?_, congrArg (fun e => Host.Outcome.next (s.withEnv e)) hstep⟩
  rw [onTick_level_toInt, attackIncrement_eq]
  rfl

/-- Settles O29: a tick with the decay step, and the test of R171 on its level. -/
theorem decayStepResult : Obligations.DecayStepResult := by
  intro s p l
  have hstep := transition_onTick_eq s.params.rateTable (decayIndex s.env.decayRate) decayed s.env
    (decayEnds_iff s.env.sustainLevel) 2
  exact ⟨_, onTick_level_toInt _ _ _ _, congrArg (fun e => Host.Outcome.next (s.withEnv e)) hstep⟩

/-- Settles O30: a tick with the decay step, and the test of R172 on its level. -/
theorem sustainStepResult : Obligations.SustainStepResult := by
  intro s p l
  have hstep := transition_onTick_eq s.params.rateTable s.env.sustainRate decayed s.env sustainEnds_iff 3
  exact ⟨_, onTick_level_toInt _ _ _ _, congrArg (fun e => Host.Outcome.next (s.withEnv e)) hstep⟩

/-- Settles O31: the release step reads no counter. -/
theorem releaseStepResult : Obligations.ReleaseStepResult :=
  fun s => ⟨clampLevel ((s.env.level.toNat : Int) - 8), clampLevel_toInt _, rfl⟩

/-- Settles O32: each mode is a tick with its own level. -/
theorem gainStepResults : Obligations.GainStepResults := by
  intro s rate p l after
  have hrow (f : Int → Int) : Host.Outcome.next (s.withEnv (onTick s.params.rateTable rate f s.env)) =
      (.next (after (onTick s.params.rateTable rate f s.env).level) : Host.Outcome State Fault Refusal) :=
    congrArg (fun e => Host.Outcome.next (s.withEnv e)) (onTick_eq s.params.rateTable rate f s.env)
  have hlevel (f : Int → Int) := onTick_level_toInt s.params.rateTable rate f s.env
  exact ⟨_, _, _, _, hlevel fun l => l - 32, hlevel fun l => l - ((l - 1) / 256 + 1), hlevel fun l => l + 32,
    hlevel fun l => l + if l < 0x600 then 32 else 8, hrow _, hrow _, hrow _, hrow _⟩

/-- Settles O26: the construction sets all the envelope registers but `ENV_GRATE`. -/
theorem adsrConstructs : Obligations.AdsrConstructs :=
  fun _ _ _ _ _ _ => rfl

/-! ## ATTACK from level 0 (42_envelope.md R170) -/

/-- The state after `n` Advances of ATTACK with period `p` from level 0 and count 0, for `n` up to `63 p`. -/
structure AttackProgress (p n : Nat) (s : State) : Prop where
  period : ratePeriod s.params.rateTable (attackIndex s.env.attackRate) = p
  slow : s.env.attackRate ≠ 15
  level : s.env.level.toNat = 32 * (n / p)
  cnt : s.env.cnt.toNat = n % p
  phase : s.env.phase = if n = 63 * p then 1 else 0

/-- Each Advance before the last keeps the progress: the `63`rd tick comes with Advance `63 p`, and no
earlier level reaches 0x7e0. -/
theorem AttackProgress.exec_adsrAttack {p n : Nat} {s : State} (h : AttackProgress p n s) (hp : 1 ≤ p)
    (hle : p ≤ 2048) (hn : n + 1 ≤ 63 * p) :
    ∃ t, exec .adsrAttack s = .next t ∧ AttackProgress p (n + 1) t := by
  obtain ⟨level, hlevel, hexec⟩ := attackStepResult s
  have hperiod : ratePeriod s.params.rateTable (BitVec.ofNat 5 (s.env.attackRate.toNat * 2 + 1)) = p := h.period
  simp only [hperiod, ticks_iff_dvd hp h.cnt, if_neg h.slow, h.level, clamped] at hlevel hexec
  have hticks : (n + 1) / p ≤ 63 := Nat.div_le_of_le_mul (by omega)
  have hlevel' : level.toNat = 32 * ((n + 1) / p) := by
    rw [Nat.succ_div] at hticks ⊢
    by_cases hdvd : p ∣ n + 1
    · rw [if_pos hdvd] at hlevel hticks ⊢
      omega
    · rw [if_neg hdvd] at hlevel hticks ⊢
      omega
  have hends : 0x7e0 ≤ level.toNat ↔ n + 1 = 63 * p := by
    have : 63 ≤ (n + 1) / p ↔ 63 * p ≤ n + 1 := Nat.le_div_iff_mul_le hp
    omega
  have hcount := countAfter_of_mod hp hle h.cnt
  refine ⟨_, hexec, h.period, h.slow, hlevel', ?_, ?_⟩
  · by_cases hlast : n + 1 = 63 * p
    · simp [hends.2 hlast, hlast]
    · simpa only [if_neg (mt hends.1 hlast)] using hcount
  · have hphase := h.phase
    rw [if_neg (by omega)] at hphase
    simp only [hends, hphase]

theorem AttackProgress.execTimes_adsrAttack {p n k : Nat} {s : State} (h : AttackProgress p n s) (hp : 1 ≤ p)
    (hle : p ≤ 2048) (hk : n + k ≤ 63 * p) :
    ∃ t, execTimes .adsrAttack k s = .next t ∧ AttackProgress p (n + k) t := by
  induction k generalizing n s with
  | zero => exact ⟨s, rfl, h⟩
  | succ k ih =>
    obtain ⟨t, ht, hnext⟩ := h.exec_adsrAttack hp hle (by omega)
    rw [SampleStream.execTimes_succ_of_next ht, Nat.add_comm k, ← Nat.add_assoc]
    exact ih hnext (by omega)

/-- Settles O34: the start is the progress of 0 Advances, and each Advance adds one. -/
theorem attackTakesSixtyThreeTicks : Obligations.AttackTakesSixtyThreeTicks := by
  intro s n p hwf hrate hphase hlevel hcnt hn
  have hp : 1 ≤ p := ratePeriod_pos hwf (attackIndex_ne_zero s.env.attackRate)
  have hstart : AttackProgress p 0 s :=
    { period := rfl
      slow := hrate
      level := by simp [hlevel]
      cnt := by simp [hcnt]
      phase := by rw [hphase, if_neg (by omega)] }
  obtain ⟨t, ht, hend⟩ := hstart.execTimes_adsrAttack (k := n) hp (ratePeriod_le hwf _) (by omega)
  rw [Nat.zero_add] at hend
  exact ⟨t, ht, hend.level, hend.phase⟩

/-! ## The Advance of a PULL -/

/-- An outcome that answers no state but one with a sample emitted and one Advance made since `s`, or neither. -/
def AdvancesWithSample (s : State) (o : Host.Outcome State Fault Refusal) : Prop :=
  ∀ t, o = .next t →
    (t.drv.outCount = s.drv.outCount + 1 ∧ t.env = advanceEnv s.params.rateTable s.env) ∨
    (t.drv.outCount = s.drv.outCount ∧ t.env = s.env)

theorem advancesWithSample_fault (s : State) (f : Fault) : AdvancesWithSample s (.fault f) := by
  simp [AdvancesWithSample]

theorem advancesWithSample_of_unchanged {s t : State} (hcount : t.drv.outCount = s.drv.outCount)
    (henv : t.env = s.env) : AdvancesWithSample s (.next t) := by
  rintro _ ⟨⟩
  exact .inr ⟨hcount, henv⟩

/-- DecodeNext leaves the envelope to the Advance; a raise comes before both emit and Advance. -/
theorem pullSample_advancesWithSample (s : State) : AdvancesWithSample s (pullSample s) := by
  rcases pullSample_cases s with ⟨-, h⟩ | ⟨-, v, -, ⟨-, h⟩ | ⟨-, h⟩⟩ <;> rw [h]
  · exact advancesWithSample_fault s _
  · rintro _ ⟨⟩
    exact .inl ⟨rfl, rfl⟩
  · exact advancesWithSample_of_unchanged rfl rfl

/-- The loop moves the cursor only (41_sample_stream.md R146), and the session's end emits nothing. -/
theorem pullStep_advancesWithSample (s : State) : AdvancesWithSample s (pullStep s) := by
  unfold pullStep
  split
  · exact pullSample_advancesWithSample s
  · split
    · exact pullSample_advancesWithSample (loopTo s.cfg.loop.index s)
    · exact advancesWithSample_of_unchanged rfl rfl

theorem execPull_advancesWithSample (s : State) : AdvancesWithSample s (execPull s) := by
  unfold execPull
  cases s.drv.status with
  | play => exact pullStep_advancesWithSample s
  | idle | loading | done | error => exact advancesWithSample_of_unchanged rfl rfl

/-- Settles O35: outside PLAY a PULL does neither, in PLAY both or neither. -/
theorem envelopeAdvancesOncePerSample : Obligations.EnvelopeAdvancesOncePerSample :=
  execPull_advancesWithSample

/-! ## Who changes `ENV_KIND` -/

/-- An outcome that answers no state but one with the kind of `s`, or one in LOADING with the envelope
constructed. -/
def KeepsKindOrConstructs (s : State) (o : Host.Outcome State Fault Refusal) : Prop :=
  ∀ t, o = .next t →
    t.env.kind = s.env.kind ∨ (t.drv.status = .loading ∧ t.env = constructed s.cfg s.env)

theorem keepsKindOrConstructs_refused (s : State) (r : Refusal) : KeepsKindOrConstructs s (.refused r) := by
  simp [KeepsKindOrConstructs]

theorem keepsKindOrConstructs_of_env {s t : State} (h : t.env = s.env) : KeepsKindOrConstructs s (.next t) := by
  rintro _ ⟨⟩
  exact .inl (congrArg Env.kind h)

@[simp] theorem loadComplete_env (s : State) : (loadComplete s).env = s.env := by
  unfold loadComplete
  split <;> rfl

theorem execParseBlock_keepsKind (range : BitVec 4) (filter : BitVec 2) (loop ends : Bool)
    (nibbles : List (BitVec 4)) (s : State) :
    KeepsKindOrConstructs s (execParseBlock range filter loop ends nibbles s) := by
  unfold execParseBlock
  split
  · exact keepsKindOrConstructs_of_env rfl
  · split
    · exact keepsKindOrConstructs_of_env (loadComplete_env _)
    · exact keepsKindOrConstructs_of_env rfl

theorem loadAction_keepsKind (s : State) : KeepsKindOrConstructs s (outcomeOf (loadAction s)) := by
  rcases loadAction_cases s with ⟨h, -⟩ | ⟨h, -⟩ | ⟨-, -, range, filter, loop, ends, nibbles, -, h⟩ <;> rw [h]
  · exact keepsKindOrConstructs_of_env (loadComplete_env s)
  · exact keepsKindOrConstructs_of_env rfl
  · exact execParseBlock_keepsKind range filter loop ends nibbles s

/-- A rejected START leaves the envelope, an accepted one constructs it (43_playback_driver.md R202). -/
theorem startSession_keepsKindOrConstructs (s : State) : KeepsKindOrConstructs s (.next (startSession s)) := by
  unfold startSession
  split
  · exact keepsKindOrConstructs_of_env rfl
  · split
    · exact keepsKindOrConstructs_of_env rfl
    · rintro _ ⟨⟩
      exact .inr ⟨rfl, BlockDecoder.constructEnv_eq s.cfg s.env⟩

/-- An Advance keeps the kind (42_envelope.md R163). -/
theorem execPull_keepsKind (s : State) : KeepsKindOrConstructs s (execPull s) := by
  intro t ht
  rcases execPull_advancesWithSample s t ht with ⟨-, henv⟩ | ⟨-, henv⟩
  · exact .inl (henv ▸ advanceEnv_kind s.params.rateTable s.env)
  · exact .inl (congrArg Env.kind henv)

/-- Of the commands only START constructs. -/
theorem exec_decodeCmd_keepsKindOrConstructs (c : BitVec 2) (s : State) :
    KeepsKindOrConstructs s (exec (decodeCmd c) s) := by
  rcases Invariant.decodeCmd_cases c with h | h | h | h <;> rw [h, exec]
  · unfold execNop
    split <;> exact keepsKindOrConstructs_of_env rfl
  · unfold execStart
    cases s.drv.status with
    | loading | error => exact keepsKindOrConstructs_of_env rfl
    | idle | play | done => exact startSession_keepsKindOrConstructs s
  · exact execPull_keepsKind s
  · unfold execCmdReserved
    split <;> exact keepsKindOrConstructs_of_env rfl

/-- Of the host's actions only a command and a reset are about the envelope. -/
theorem hostAction_keepsKindOrConstructs {op : HostOp} (hop : op ≠ .reset) (s : State) :
    KeepsKindOrConstructs s (outcomeOf (hostAction op s)) := by
  rcases hostAction_cases op s with
    ⟨r, h⟩ | ⟨v, h⟩ | ⟨hr, h⟩ | ⟨a, b, -, -, h⟩ | ⟨c, -, h⟩ | ⟨x, h⟩ | h | ⟨w, -, h⟩ <;> rw [h]
  · exact keepsKindOrConstructs_refused s r
  · exact keepsKindOrConstructs_of_env rfl
  · exact absurd hr hop
  · exact keepsKindOrConstructs_of_env rfl
  · exact keepsKindOrConstructs_of_env rfl
  · exact keepsKindOrConstructs_of_env rfl
  · exact keepsKindOrConstructs_of_env rfl
  · exact exec_decodeCmd_keepsKindOrConstructs (w.extractLsb' 0 2) s

/-- A step keeps the kind or constructs, unless it is the host's reset. -/
theorem step_keepsKindOrConstructs (s : State) :
    KeepsKindOrConstructs s (step s) ∨ ∃ rest, HostTurn s .reset rest := by
  rcases turn_cases s with ⟨t, ht⟩ | ⟨op, rest, ht⟩ | ⟨hl, c, cs, hc⟩ | ⟨hl, hheld, hhost⟩
  · left
    rw [step_of_loadTurn ht]
    obtain ⟨-, ⟨-, rfl⟩ | ⟨n, op, rest, -, rfl⟩⟩ := ht
    · exact loadAction_keepsKind t
    · exact loadAction_keepsKind (s.withHost ({ after := n, op := op } :: rest))
  · by_cases hop : op = .reset
    · exact .inr ⟨rest, hop ▸ ht⟩
    · left
      rw [step_of_hostTurn ht]
      exact hostAction_keepsKindOrConstructs hop (s.withHost rest)
  · left
    rw [step_of_held hl hc]
    exact exec_decodeCmd_keepsKindOrConstructs c (s.withHeld cs)
  · left
    rw [step_of_waiting hl hheld hhost]
    exact keepsKindOrConstructs_of_env rfl

/-- Settles O36: by whose turn it is; only START and a reset construct. -/
theorem envelopeKindChangesAtStartOnly : Obligations.EnvelopeKindChangesAtStartOnly := by
  intro s t _ ht hkind
  rcases step_keepsKindOrConstructs s with hkeep | hreset
  · exact .inl ((hkeep t ht).resolve_left hkind)
  · exact .inr hreset

end Sys2Proof.Proofs.Envelope

/-! # 43_playback_driver.md: the commands in each state, the scaler, and the length of a session -/

namespace Sys2Proof.Proofs.PlaybackDriver

open Sys2Proof.Machine Sys2Proof.Statements

/-! ## The commands in LOADING and in ERROR -/

/-- While LOADING every command is held (R210). -/
theorem exec_decodeCmd_of_loading (c : BitVec 2) {s : State} (h : s.drv.status = .loading) :
    exec (decodeCmd c) s = .next (holdCommand c s) := by
  rcases Encoding.phase_cases c with rfl | rfl | rfl | rfl
  · change execNop s = _
    rw [execNop, h]
  · change execStart s = _
    rw [execStart, h]
  · change execPull s = _
    rw [execPull, h]
  · change execCmdReserved s = _
    rw [execCmdReserved, h]

/-- In ERROR every command is ignored (R200, 60_exceptions.md R235). -/
theorem exec_decodeCmd_of_error (c : BitVec 2) {s : State} (h : s.drv.status = .error) :
    exec (decodeCmd c) s = .next s := by
  rcases Encoding.phase_cases c with rfl | rfl | rfl | rfl
  · change execNop s = _
    rw [execNop, h]
  · change execStart s = _
    rw [execStart, h]
  · change execPull s = _
    rw [execPull, h]
  · change execCmdReserved s = _
    rw [execCmdReserved, h]

/-- Settles O37: the four commands are the four values of CTRL's two bits. -/
theorem commandsInLoadingAndError : Obligations.CommandsInLoadingAndError :=
  fun _ => ⟨
    fun h => ⟨exec_decodeCmd_of_loading 0 h, exec_decodeCmd_of_loading 1 h, exec_decodeCmd_of_loading 2 h,
      exec_decodeCmd_of_loading 3 h⟩,
    fun h => ⟨exec_decodeCmd_of_error 0 h, exec_decodeCmd_of_error 1 h, exec_decodeCmd_of_error 2 h,
      exec_decodeCmd_of_error 3 h⟩⟩

/-! ## The commands in the other states -/

/-- Settles O38: of NOP's five states only LOADING does something. -/
theorem nopChangesNothing : Obligations.NopChangesNothing := by
  intro s hs
  change execNop s = .next s
  unfold execNop
  cases h : s.drv.status with
  | loading => exact absurd h hs
  | idle | play | done | error => rfl

/-- Settles O39: the raise is the same in the three states. -/
theorem reservedCommandRaises : Obligations.ReservedCommandRaises := by
  intro s hs
  change execCmdReserved s = .next (raiseError .contractCmd 3 s)
  rcases hs with h | h | h <;> rw [execCmdReserved, h]

/-- Settles O40: the two checks of `startSession`, in their order. -/
theorem startChecksConfiguration : Obligations.StartChecksConfiguration := by
  intro s hs
  have hstart : exec .start s = .next (startSession s) := Encoding.execStart_of_waiting hs
  refine ⟨fun hrate => ?_, fun hrate hpres hcount => ?_⟩
  · rw [hstart, startSession, if_pos hrate]
    rfl
  · have hzero : endovrZero s = true := Bool.and_eq_true_iff.2 ⟨hpres, decide_eq_true hcount⟩
    rw [hstart, startSession, if_neg hrate, if_pos hzero]
    rfl

/-- Settles O45: the two raises of `execPull`. -/
theorem pullOutsideASessionRaises : Obligations.PullOutsideASessionRaises := by
  intro s
  refine ⟨fun hidle => ?_, fun hdone => ?_⟩
  · change execPull s = .next (raiseError .contractPull 0 s)
    rw [execPull, hidle]
  · change execPull s = .next (raiseError .contractPull 3 s)
    rw [execPull, hdone]

/-- Settles O44: with no sample left and no loop, PULL's last branch ends the session. -/
theorem pullEndsTheSession : Obligations.PullEndsTheSession := by
  intro s hplay hend hloop
  have hnext : ¬ hasNext s = true := mt hasNext_iff.1 (Nat.not_lt.2 hend)
  have hagain : ¬ loopsAgain s = true := by simpa [loopsAgain] using hloop
  change execPull s = .next (endSession s)
  simp only [execPull, hplay, pullStep, if_neg hnext, if_neg hagain]

/-! ## The scaler -/

/-- Level 0x800 is 2^11, which both divisions undo (R205). -/
theorem scaleSample_unit (r : ScaleRound) (v : Int) : scaleSample r v 0x800 = v := by
  have hlevel : (((0x800 : BitVec 12).toNat : Nat) : Int) = 2048 := rfl
  rw [SampleStream.scaleSample_eq, hlevel]
  cases r with
  | floor => exact Int.mul_ediv_cancel v (by decide)
  | trunc => exact Int.mul_tdiv_cancel v (by decide)

/-- At level 0 the product is 0 (R205). -/
theorem scaleSample_zero (r : ScaleRound) (v : Int) : scaleSample r v 0 = 0 := by
  have hlevel : (((0 : BitVec 12).toNat : Nat) : Int) = 0 := rfl
  rw [SampleStream.scaleSample_eq, hlevel, Int.mul_zero]
  cases r with
  | floor => exact Int.zero_ediv 2048
  | trunc => exact Int.zero_tdiv 2048

/-- Settles O46: `scaleSample_between` with the sign of the sample, and the two ends of the level. -/
theorem scaledSampleBetweenZeroAndSample : Obligations.ScaledSampleBetweenZeroAndSample := by
  intro r v level hlevel
  have hbetween := scaleSample_between r v hlevel
  refine ⟨fun hv => ?_, fun hv => ?_, ?_, ?_⟩
  · omega
  · omega
  · rintro rfl
    exact scaleSample_unit r v
  · rintro rfl
    exact scaleSample_zero r v

/-! ## The length of a session without a loop (R208) -/

/-- With no samples left the cursor is at the end of the stream: a block has 16 of them. -/
theorem exhausted_of_samplesLeft_eq_zero {s : State} (h : samplesLeft s = 0) :
    s.load.nblk.toNat ≤ s.stream.curBlock.toNat := by
  have hnib := s.stream.curNibble.isLt
  rw [samplesLeft] at h
  omega

/-- Settles O47, by induction on the samples left: each PULL emits one of them or raises OVERFLOW, after
which PULLs are ignored; the PULL after the last one ends the session. -/
theorem nonLoopingSessionLength : Obligations.NonLoopingSessionLength := by
  rintro s - hplay hpres
  generalize hk : samplesLeft s = k
  induction k generalizing s with
  | zero =>
    have hnoLoop : ¬ (s.cfg.loop.present = true ∧ s.env.level ≠ 0) := by simp [hpres]
    have hend := pullEndsTheSession s hplay (exhausted_of_samplesLeft_eq_zero hk) hnoLoop
    exact ⟨s, rfl, .inr ⟨hplay, (BitVec.add_zero _).symm, hend⟩⟩
  | succ k ih =>
    have hnext := SampleStream.hasNext_of_samplesLeft_pos (s := s) (by omega)
    by_cases hfit : Fits s.params.histW (SampleStream.valueAtCursor s)
    · have hleft := SampleStream.samplesLeft_afterSample hnext (SampleStream.valueAtCursor s)
      obtain ⟨t, ht, hlast⟩ := ih (SampleStream.afterSample (SampleStream.valueAtCursor s) s) hplay hpres (by omega)
      rw [SampleStream.execTimes_succ_of_next (SampleStream.exec_pull_of_fits hplay hnext hfit)]
      refine ⟨t, ht, hlast.imp_right fun ⟨htplay, hcount, hend⟩ => ⟨htplay, ?_, hend⟩⟩
      calc t.drv.outCount
          = s.drv.outCount + 1 + BitVec.ofNat 64 k := hcount
        _ = s.drv.outCount + BitVec.ofNat 64 (k + 1) := by
          rw [BitVec.add_assoc, BitVec.add_comm 1, BitVec.ofNat_add]
          rfl
    · rw [SampleStream.execTimes_succ_of_next (SampleStream.exec_pull_of_not_fits hplay hnext hfit),
        SampleStream.execTimes_pull_of_error rfl]
      exact ⟨_, rfl, .inl ⟨rfl, rfl⟩⟩

end Sys2Proof.Proofs.PlaybackDriver

/-! # 60_exceptions.md: a LOAD comes to an end -/

namespace Sys2Proof.Proofs.Exceptions

open Sys2Proof.Machine Sys2Proof.Statements

/-! ## One LOAD step -/

/-- The states that end a LOAD (60_exceptions.md R243). -/
def LoadEnded (s : State) : Prop := s.drv.status = .play ∨ s.drv.status = .error

theorem loadEnded_errorState (c : ErrCode) (w : Word) (s : State) : LoadEnded (errorState c w s) := .inr rfl

/-- LoadComplete ends the LOAD on both sides of its loop check (40_block_decoder.md R116). -/
theorem loadEnded_completedState (s : State) : LoadEnded (completedState s) := by
  unfold completedState
  split
  · exact loadEnded_errorState _ _ s
  · exact .inl rfl

/-- A LOAD step ends the LOAD, or keeps one more block in a store with room for it (40_block_decoder.md
R111 to R116). -/
theorem step_of_loadTurn_cases {s t : State} (ht : LoadTurn s t) :
    (∃ u, step s = .next u ∧ LoadEnded u) ∨
    (t.load.nblk.toNat ≠ t.params.maxBlocks ∧ ∃ r, step s = .next (keepBlock r t)) := by
  obtain ⟨hreached, hexhausted⟩ := BlockDecoder.loadStepStopsBeforeParsing s t ht
  by_cases hcount : t.cfg.endovr.present = true ∧ t.load.nblk = t.cfg.endovr.count
  · exact .inl ⟨_, hreached hcount, loadEnded_completedState t⟩
  by_cases hlen : t.cfg.srclen.toNat < t.load.ldPtr.toNat + 9
  · refine .inl ⟨_, hexhausted hcount hlen, ?_⟩
    split
    · exact loadEnded_completedState t
    · exact loadEnded_errorState _ _ t
  have hlen : t.load.ldPtr.toNat + 9 ≤ t.cfg.srclen.toNat := Nat.le_of_not_lt hlen
  by_cases hfull : t.load.nblk.toNat = t.params.maxBlocks
  · exact .inl ⟨_, BlockDecoder.fullStoreRaisesCapacity s t ht hcount hlen hfull, loadEnded_errorState _ _ t⟩
  have hstep := Encoding.step_of_fetchedBlock ht hcount hlen hfull
  dsimp only at hstep
  split at hstep
  · exact .inl ⟨_, hstep, loadEnded_completedState _⟩
  · exact .inr ⟨hfull, _, hstep⟩

/-! ## The steps of a LOAD, counted by the room in the store -/

theorem run_succ_of_next {s t : State} (h : step s = .next t) (k : Nat) : core.run (k + 1) s = core.run k t := by
  have hcore : core.step s = .next t := h
  simp only [Host.Core.run, hcore]

/-- The records the block store still has room for (40_block_decoder.md R113). -/
def storeRoom (s : State) : Nat := s.params.maxBlocks - s.load.nblk.toNat

/-- A kept block takes one record's room: below `MAX_BLOCKS` the count does not wrap. -/
theorem storeRoom_keepBlock {s : State} (hs : s.Inv) (hroom : s.load.nblk.toNat ≠ s.params.maxBlocks)
    (r : BlockRec) : storeRoom s = storeRoom (keepBlock r s) + 1 := by
  obtain ⟨⟨-, -, hmax, -⟩, -, ⟨hnblk, hlen⟩, -⟩ := hs
  have hnext : (s.load.nblk + 1).toNat = s.load.nblk.toNat + 1 :=
    BitVec.toNat_add_of_lt (by simp; omega)
  simp only [storeRoom, keepBlock, State.withLoad_load, State.withLoad_params, hnext]
  omega

/-- Left alone, a LOAD ends after at most one step for each record of room and one more, by induction on
the room: a step that does not end the LOAD keeps a block and the invariant. -/
theorem run_reaches_loadEnded {s : State} (hs : s.Inv) (hl : s.drv.status = .loading) (hh : s.host = []) :
    ∃ k t, k ≤ storeRoom s + 1 ∧ core.run k s = .next t ∧ LoadEnded t := by
  induction hroom : storeRoom s using Nat.strong_induction_on generalizing s with
  | h room ih =>
    rcases step_of_loadTurn_cases ⟨hl, .inl ⟨hh, rfl⟩⟩ with ⟨t, hstep, ht⟩ | ⟨hfull, r, hstep⟩
    · exact ⟨1, t, by omega, run_succ_of_next hstep 0, ht⟩
    · have hless := storeRoom_keepBlock hs hfull r
      have hkept : (keepBlock r s).Inv := Invariant.step_keepsInv hs _ hstep
      obtain ⟨k, t, hk, hrun, ht⟩ := ih (storeRoom (keepBlock r s)) (by omega) hkept hl hh rfl
      exact ⟨k + 1, t, by omega, (run_succ_of_next hstep k).trans hrun, ht⟩

/-- Settles O17: the room in the store is at most `MAX_BLOCKS`. -/
theorem loadReachesPlayOrError : Obligations.LoadReachesPlayOrError := by
  intro s hs hl hh
  obtain ⟨k, t, hk, hrun, ht⟩ := run_reaches_loadEnded hs hl hh
  have hroom : storeRoom s ≤ s.params.maxBlocks := Nat.sub_le _ _
  exact ⟨k, t, by omega, hrun, ht⟩

end Sys2Proof.Proofs.Exceptions

/-! # 70_reset_and_hazards.md: a reset is taken in every state -/

namespace Sys2Proof.Proofs.ResetAndHazards

open Sys2Proof.Machine Sys2Proof.Statements

/-- The coming accesses a reset leaves to the host (log 5) are those after the one just taken. -/
theorem resetCore_withHost (s : State) (rest : List HostEntry) :
    resetCore (s.withHost rest) =
      { State.reset with params := s.params, src := s.src, host := rest, readData := s.readData } := rfl

/-- LOADING or not, a reset on its turn is all the step does (70_reset_and_hazards.md R260). -/
theorem step_of_reset {s : State} {rest : List HostEntry} (h : HostTurn s .reset rest) :
    step s = .next (resetCore (s.withHost rest)) := by
  rw [step_of_hostTurn h, hostAction, outcomeOf]

/-- Settles O6: the step is the reset of the state without the reset's own entry. -/
theorem resetIsTakenInEveryState : Obligations.ResetIsTakenInEveryState := by
  intro s rest h
  rw [step_of_reset h, resetCore_withHost]

end Sys2Proof.Proofs.ResetAndHazards
